-- ==== Sys2Proof/Word.lean ====
section
/-! DEFINITION. The bit-level types of the rgb2cmyk CORE: the byte that both streams carry and the 12-bit
event word that stands for one clock edge. -/

namespace Sys2Proof

/-- A byte `b[7:0]`, unsigned, bit 7 the most significant (R7, R40). -/
abbrev Byte := BitVec 8

/-- The event word `E[11:0]` sampled at one rising edge of `clk` (R42). -/
abbrev EventWord := BitVec 12

/-- The two phases of the cycle level (glossary of 00_scope.md): input phase when `out_cnt = 0`, output phase
otherwise. The phase is a function of the state (`Machine.phase`), never stored. -/
inductive Phase where
  | input
  | output
deriving DecidableEq, Repr

end Sys2Proof
end

