-- ==== Sys2Proof/Config.lean ====
section
/-! DEFINITION. The fixed constant of CONVERT (R5) and the two free values that the spec leaves open: neither has a
body, so no proof can see what it is. The other fixed parameters of R5, the sizes and widths, are the types of the
state (Machine/State.lean), of the byte and of the event word (Word.lean). -/

namespace Sys2Proof.Config

/-- The largest component value, and the constant of the inversion, the degenerate test, the multiplier and iK
in CONVERT (R5, R60). -/
def maxComponent : Nat := 255

/-- FREE VALUE: what `out_data` carries while `out_valid = 0`, a fresh draw at every cycle (R101, 93 entry I1).
It is applied to the number of the cycle, `State.edge` (notes/assumptions/3.md). -/
opaque freeOutData : Nat → Byte

/-- FREE VALUE: the event word that the host presents at a clock edge for which `State.stim` lists none. The
host's schedule is an input of the CORE over which claims quantify (R17). It is applied to the number of the
cycle, `State.edge` (notes/assumptions/1.md). -/
opaque hostEvent : Nat → EventWord

end Sys2Proof.Config
end

