-- ==== Sys2Proof/Machine/Converter.lean ====
section
/-! DEFINITION. The Channel Converter: CONVERT of R60, computed in exact integers (R8) and narrowed to bytes at the
end. It is a pure function of three bytes (R68). -/

namespace Sys2Proof.Machine

/-- Step 1: an inverted channel, `255 - x` (R60, R61). -/
def invert (x : Byte) : Nat := Config.maxComponent - x.toNat

/-- Step 2: K, the minimum of the three inverted channels (R60). -/
def keyOf (r g b : Byte) : Nat := min (min (invert r) (invert g)) (invert b)

/-- The product of step 4, `255 * (iX - K)`, formed in full before the division (R65). It never exceeds 65025, which
16 bits hold (R64). -/
def channelProduct (iX k : Nat) : Nat := Config.maxComponent * (iX - k)

/-- Steps 3 and 4 for one channel: 0 in the degenerate case `K = 255`, in which nothing is divided (R62, R111), else
the product divided by `iK = 255 - K`, rounded down (R60, R65). -/
def channel (iX k : Nat) : Nat :=
  if k = Config.maxComponent then 0 else channelProduct iX k / (Config.maxComponent - k)

/-- Step 5: the four results in the order C, M, Y, K, as exact integers. -/
def convertExact (r g b : Byte) : Vector Nat 4 :=
  let k := keyOf r g b
  #v[channel (invert r) k, channel (invert g) k, channel (invert b) k, k]

/-- CONVERT(R, G, B) as the four bytes C, M, Y, K (R60). Narrowing loses nothing, since every result is in [0,255]
(R63). -/
def convert (r g b : Byte) : Vector Byte 4 :=
  let q := convertExact r g b
  #v[BitVec.ofNat 8 q[0], BitVec.ofNat 8 q[1], BitVec.ofNat 8 q[2], BitVec.ofNat 8 q[3]]

end Sys2Proof.Machine
end

