-- ==== Sys2Proof/Syntax.lean ====
section
/-! DEFINITION. The operations of the CORE: one constructor per row of spec/opcode_table.json (R43). The only
operand is the data byte `d = E[7:0]` (R42). -/

namespace Sys2Proof

/-- The seven cycle-level operations. CONVERT has no row, because no event word selects it (R43). -/
inductive Instr where
  /-- RESET (R130): synchronous reset, in any state. -/
  | reset
  /-- FEED (R82): accept one input byte. -/
  | feed (b : Byte)
  /-- FEED_EOS (R84): accept the last byte of a stream and end the stream. -/
  | feedEos (b : Byte)
  /-- EOS (R85): end the stream without a byte. -/
  | eos
  /-- IDLE (R87): no input transfer in the input phase. -/
  | idle
  /-- EMIT (R102): the sink takes one output byte. -/
  | emit
  /-- STALL (R103): the sink is not ready in the output phase. -/
  | stall
deriving DecidableEq, Repr

/-- The mnemonic of the operation, as the opcode table and the stimulus syntax (R46) spell it. -/
def Instr.mnemonic : Instr → String
  | .reset => "RESET"
  | .feed _ => "FEED"
  | .feedEos _ => "FEED_EOS"
  | .eos => "EOS"
  | .idle => "IDLE"
  | .emit => "EMIT"
  | .stall => "STALL"

end Sys2Proof
end

