-- ==== Sys2Proof/WellFormed.lean ====
section
/-! DEFINITION. The check on an operation: the phase condition of its row of the opcode table (R43). Its operand
needs no check, since every byte is legal (R44, R82). -/

namespace Sys2Proof

/-- The phase condition of an operation's row: `none` for "any state", else the one phase in which the row can
apply (column "phase condition" of R43; "cond" of spec/opcode_table.json). -/
def Instr.phaseCondition : Instr → Option Phase
  | .reset => none
  | .feed _ => some .input
  | .feedEos _ => some .input
  | .eos => some .input
  | .idle => some .input
  | .emit => some .output
  | .stall => some .output

/-- The operation is well formed in phase `p`: an event word can select it there (R43). -/
def Instr.wellFormedIn (p : Phase) (i : Instr) : Bool :=
  match i.phaseCondition with
  | none => true
  | some q => decide (q = p)

end Sys2Proof
end

