-- ==== Sys2Proof/Decode.lean ====
section
/-! DEFINITION. The event word's fields (R42), the decode of R43, the opcode table as data, the canonical words of
R46 (the encoder), and the two entry points that the host calls. -/

namespace Sys2Proof

/-- `E[11]`, the signal `rst` (R42). -/
def EventWord.rst (E : EventWord) : Bool := E[11]

/-- `E[10]`, the signal `in_eos` (R42). -/
def EventWord.inEos (E : EventWord) : Bool := E[10]

/-- `E[9]`, the signal `in_valid` (R42). -/
def EventWord.inValid (E : EventWord) : Bool := E[9]

/-- `E[8]`, the signal `out_ready` (R42). -/
def EventWord.outReady (E : EventWord) : Bool := E[8]

/-- `E[7:0]`, the signal `in_data` (R42). -/
def EventWord.inData (E : EventWord) : Byte := E.extractLsb' 0 8

/-- The event word that the five input signals form at an edge: `{rst, in_eos, in_valid, out_ready, in_data}`
(R42, D17). -/
def EventWord.ofSignals (rst inEos inValid outReady : Bool) (inData : Byte) : EventWord :=
  BitVec.ofBool rst ++ BitVec.ofBool inEos ++ BitVec.ofBool inValid ++ BitVec.ofBool outReady ++ inData

/-- `Decode(s, E)` of R43, where the state enters only through its phase. Total: every event word is legal in
every state (R44). -/
def decode (p : Phase) (E : EventWord) : Instr :=
  if EventWord.rst E then .reset
  else match p with
    | .input =>
      match EventWord.inEos E, EventWord.inValid E with
      | false, true => .feed (EventWord.inData E)
      | true, true => .feedEos (EventWord.inData E)
      | true, false => .eos
      | false, false => .idle
    | .output => if EventWord.outReady E then .emit else .stall

/-- One row of the opcode table (R43). -/
structure Row where
  mnemonic : String
  mask : EventWord
  pattern : EventWord
  cond : Option Phase
deriving DecidableEq, Repr

/-- The rows of R43, column by column as the spec prints them. -/
def opcodeTable : List Row :=
  [ ⟨"RESET", 0x800, 0x800, none⟩,
    ⟨"FEED", 0xE00, 0x200, some .input⟩,
    ⟨"FEED_EOS", 0xE00, 0x600, some .input⟩,
    ⟨"EOS", 0xE00, 0x400, some .input⟩,
    ⟨"IDLE", 0xE00, 0x000, some .input⟩,
    ⟨"EMIT", 0x900, 0x100, some .output⟩,
    ⟨"STALL", 0x900, 0x000, some .output⟩ ]

/-- A row applies when its mask and match fit the word and its phase condition holds (R43). -/
def Row.applies (r : Row) (p : Phase) (E : EventWord) : Bool :=
  decide (E &&& r.mask = r.pattern) && decide (r.cond = none ∨ r.cond = some p)

/-- The encoder: the canonical event word of an operation, its don't-care bits 0 (R46). IDLE and STALL share the
word 0x000; the phase tells them apart. -/
def encode : Instr → EventWord
  | .reset => 0x800
  | .feed b => 0x200 ||| b.setWidth 12
  | .feedEos b => 0x600 ||| b.setWidth 12
  | .eos => 0x400
  | .idle => 0x000
  | .emit => 0x100
  | .stall => 0x000

/-- Why a number is no event word. -/
inductive DecodeError where
  /-- The number has a bit above `E[11]`; R42 gives the event word twelve bits and no other length. -/
  | widerThanTwelveBits
deriving DecidableEq, Repr

/-- A number read as an event word: rejected by name when it does not fit the one format of R42
(notes/assumptions/5.md). -/
def eventWordOfNat (w : Nat) : Except DecodeError EventWord :=
  if w < 4096 then .ok (BitVec.ofNat 12 w) else .error .widerThanTwelveBits

/-- The phase in which a word is read when it stands alone, without a state: the output phase for a word that has
only `out_ready` set among its strobes (the canonical word of EMIT), the input phase, which is the phase right
after reset, for every other one. DESIGN CHOICE (notes/assumptions/5.md): the spec decodes a word only together
with a state, and the two rows IDLE and STALL have the same canonical word. -/
def wordPhase (E : EventWord) : Phase :=
  if !EventWord.rst E && !EventWord.inEos E && !EventWord.inValid E && EventWord.outReady E then .output
  else .input

/-- The operation that the decoder reads from a table row's word standing alone. -/
def decodeTableWord (nbits w : Nat) : Option Instr :=
  match eventWordOfNat (w % 2 ^ nbits) with
  | .ok E => some (decode (wordPhase E) E)
  | .error _ => none

end Sys2Proof
end

