-- ==== Sys2Proof/Machine/State.lean ====
section
/-! DEFINITION. The state of the CORE (R10, R11), the model's own fields beside it, and why a step can stop. -/

namespace Sys2Proof.Machine

/-- Faults: none exist. No operation and no evaluation of CONVERT faults, traps, records a cause or stops the CORE
(R110, R115), so the type has no constructor and no step can answer a fault. -/
inductive Fault
deriving DecidableEq, Repr

/-- Refusals. -/
inductive Refusal where
  /-- For an arm of `exec` whose operation has no meaning yet. No arm uses it: all seven operations are modelled.
  Safe: it would only stop a run. -/
  | notModelled (mnemonic : String)
deriving DecidableEq, Repr

/-- The state at the cycle level. The first four fields are all that the spec gives the CORE (R10, R11, R16); it has
no register, program counter, flag, mode or memory beside them (R16, R30, R115, R117). The last three are the
model's own: the host's schedule, the observation and the cycle number, which R17 calls inputs and observation. -/
structure State where
  /-- `buf[0..2]`: slot i holds the i-th byte of the current input pixel (R12). -/
  buf : Vector Byte 3
  /-- `fill`: bytes of the partial pixel stored, 0 to 2; the register encoding 3 is excluded (R13, R19, D25). -/
  fill : Fin 3
  /-- `out_reg[0..3]`: C, M, Y, K of the last completed pixel (R14). -/
  outReg : Vector Byte 4
  /-- `out_cnt`: bytes of `out_reg` still to be sent, 0 to 4; the encodings 5 to 7 are excluded (R15, R19, D25). -/
  outCnt : Fin 5
  /-- MODEL'S OWN: the event words that the host will present, one per edge, next one first (R17, R37, R46). -/
  stim : List EventWord
  /-- MODEL'S OWN: the bytes that the sink has taken, oldest first; the observation O of R107 and R108. -/
  sink : List Byte
  /-- MODEL'S OWN: the number of clock edges so far. It only indexes the free values of Config. -/
  edge : Nat
deriving DecidableEq, Repr

/-- The state after an edge with `rst = 1`, every register at the value of R20, where R21 has a model start. Nothing
is scheduled, nothing has been sent (notes/assumptions/4.md). -/
def State.reset : State where
  buf := #v[0, 0, 0]
  fill := 0
  outReg := #v[0, 0, 0, 0]
  outCnt := 0
  stim := []
  sink := []
  edge := 0

end Sys2Proof.Machine
end

