-- ==== Sys2Proof/Machine/Flags.lean ====
section
/-! DEFINITION. The status outputs of the CORE. It stores no flags: `in_ready` and `out_valid` are functions of
`out_cnt` alone (R16, R41). -/

namespace Sys2Proof.Machine

/-- `out_valid = (out_cnt != 0)` (R100). -/
def outValid (s : State) : Bool := decide (s.outCnt ≠ 0)

/-- `in_ready = (out_cnt == 0)` (R80). -/
def inReady (s : State) : Bool := decide (s.outCnt = 0)

/-- The phase of a state: input phase exactly when `out_cnt = 0` (R43). -/
def phase (s : State) : Phase := if s.outCnt = 0 then .input else .output

/-- A run is drained when its final state has `out_cnt = 0` (R108). -/
def drained (s : State) : Bool := decide (s.outCnt = 0)

end Sys2Proof.Machine
end

