-- ==== Sys2Proof/Machine/Operands.lean ====
section
/-! DEFINITION. What the two channels carry and when a transfer happens (R41, R81, R101). The only operand is the data
byte of the event word, which `decode` hands to the operation. -/

namespace Sys2Proof.Machine

/-- `out_data`: while `out_cnt != 0` the byte `out_reg[4 - out_cnt]`; while `out_cnt = 0` a free value, drawn afresh at
each cycle (R101, 93 entry I1). It depends only on the state. -/
def outData (s : State) : Byte :=
  if h : s.outCnt = 0 then Config.freeOutData s.edge
  else s.outReg[4 - s.outCnt.val]'(by
    have : s.outCnt.val ≠ 0 := fun e => h (Fin.ext e)
    omega)

/-- An input transfer happens at the edge: `rst = 0`, `in_ready = 1`, and `in_valid = 1` or `in_eos = 1` (R81). -/
def inputTransfer (s : State) (E : EventWord) : Bool :=
  !EventWord.rst E && inReady s && (EventWord.inValid E || EventWord.inEos E)

/-- An output transfer happens at the edge: `rst = 0`, `out_valid = 1` and `out_ready = 1` (R41). -/
def outputTransfer (s : State) (E : EventWord) : Bool :=
  !EventWord.rst E && outValid s && EventWord.outReady E

/-- The bytes of `out_reg` not yet sent, next one first: its last `out_cnt` slots (R15, R101). -/
def unsent (s : State) : List Byte := s.outReg.toList.drop (4 - s.outCnt.val)

end Sys2Proof.Machine
end

