-- ==== Sys2Proof/Machine/Ops.lean ====
section
/-! DEFINITION. The named operations over the registers that the seven meanings share, and the sampling of the next
event word. The CORE has no memory to read or write (R30) and no exception to take or return from (R110, R115,
R116), so there is no operation for either. -/

namespace Sys2Proof.Machine

/-- `buf[fill] <- b; fill <- fill + 1`, for `fill < 2` (R82). No other slot is written (R12). -/
def storeByte (b : Byte) (s : State) : State :=
  { s with
    buf := s.buf.set s.fill.val b s.fill.isLt
    fill := s.fill + 1 }

/-- Complete(b): pixel completion (R83). The two stored bytes and the byte being accepted go to CONVERT; everything
takes effect at the one edge. -/
def complete (b : Byte) (s : State) : State :=
  { s with
    buf := s.buf.set 2 b
    outReg := convert s.buf[0] s.buf[1] b
    outCnt := 4
    fill := 0 }

/-- The feed step of FEED and FEED_EOS: the byte completes the pixel when `fill == 2`, else it is stored and
counted (R82). -/
def acceptByte (b : Byte) (s : State) : State :=
  if s.fill = 2 then complete b s
  else storeByte b s

/-- The end-of-stream step of EOS and FEED_EOS: any partial pixel is discarded, with no output (R85). -/
def endStream (s : State) : State := { s with fill := 0 }

/-- The EMIT step: the sink records the byte on `out_data` and one byte fewer remains (R102, R137). -/
def sendByte (s : State) : State :=
  { s with
    sink := s.sink ++ [outData s]
    outCnt := ⟨s.outCnt.val - 1, by omega⟩ }

/-- Every register at its reset value (R20, R130). The host's schedule, the bytes already sent and the cycle number lie
outside the CORE and stay. -/
def resetRegisters (s : State) : State :=
  { s with
    buf := #v[0, 0, 0]
    fill := 0
    outReg := #v[0, 0, 0, 0]
    outCnt := 0 }

/-- An input-side effect takes place only in the input phase: while `out_cnt != 0` an offered byte or EOS is not
transferred and has no effect on the state (R88, notes/assumptions/6.md). -/
def inInputPhase (effect : State → State) (s : State) : State :=
  if inReady s then effect s else s

/-- An output-side effect takes place only in the output phase: while `out_cnt = 0` `out_ready` is ignored and no byte is
sent (R104, notes/assumptions/6.md). -/
def inOutputPhase (effect : State → State) (s : State) : State :=
  if outValid s then effect s else s

/-- The event word sampled at the next edge: the head of the host's schedule, and a free word once the schedule lists no
more (R17, R42, notes/assumptions/1.md). -/
def nextEvent (s : State) : EventWord :=
  match s.stim with
  | [] => Config.hostEvent s.edge
  | E :: _ => E

/-- The state once that word is sampled: the schedule moves on by one edge. No register of the CORE changes. -/
def sampled (s : State) : State :=
  { s with stim := s.stim.tail, edge := s.edge + 1 }

/-- `s` brought into phase `p`, unchanged where it is in it already. It serves `State.withFetchWord` only, for a word
that selects its operation in the other phase (notes/assumptions/5.md); no step uses it. -/
def inPhase (p : Phase) (s : State) : State :=
  match p with
  | .input => if s.outCnt = 0 then s else { s with outCnt := 0 }
  | .output => if s.outCnt = 0 then { s with outCnt := 4, fill := 0 } else s

end Sys2Proof.Machine
end

