-- ==== Sys2Proof/Machine/Accumulator.lean ====
section
/-! DEFINITION. The meanings of the input-phase operations FEED, FEED_EOS, EOS and IDLE (41_accumulator.md). In the
output phase none of them transfers anything (R88). -/

namespace Sys2Proof.Machine

/-- FEED(b) (R82, R83). -/
def execFeed (b : Byte) (s : State) : Host.Outcome State Fault Refusal :=
  .next (inInputPhase (acceptByte b) s)

/-- FEED_EOS(b) (R84): the feed first, then the end of the stream (R114 item 3). -/
def execFeedEos (b : Byte) (s : State) : Host.Outcome State Fault Refusal :=
  .next (inInputPhase (fun t => endStream (acceptByte b t)) s)

/-- EOS (R85). -/
def execEos (s : State) : Host.Outcome State Fault Refusal :=
  .next (inInputPhase endStream s)

/-- IDLE (R87): no state change. -/
def execIdle (s : State) : Host.Outcome State Fault Refusal :=
  .next s

end Sys2Proof.Machine
end

