-- ==== Sys2Proof/Machine/Serializer.lean ====
section
/-! DEFINITION. The meanings of the output-phase operations EMIT and STALL (42_serializer.md). In the input phase neither
sends anything (R104). -/

namespace Sys2Proof.Machine

/-- EMIT (R102). -/
def execEmit (s : State) : Host.Outcome State Fault Refusal :=
  .next (inOutputPhase sendByte s)

/-- STALL (R103): no state change. -/
def execStall (s : State) : Host.Outcome State Fault Refusal :=
  .next s

end Sys2Proof.Machine
end

