-- ==== Sys2Proof/Machine/Dispatch.lean ====
section
/-! DEFINITION. One arm per operation of the opcode table. -/

namespace Sys2Proof.Machine

def exec (i : Instr) (s : State) : Host.Outcome State Fault Refusal :=
  match i with
  | .reset => Sys2Proof.Machine.execReset s
  | .feed b => Sys2Proof.Machine.execFeed b s
  | .feedEos b => Sys2Proof.Machine.execFeedEos b s
  | .eos => Sys2Proof.Machine.execEos s
  | .idle => Sys2Proof.Machine.execIdle s
  | .emit => Sys2Proof.Machine.execEmit s
  | .stall => Sys2Proof.Machine.execStall s

end Sys2Proof.Machine
end

