-- ==== Sys2Proof/Machine/Step.lean ====
section
/-! DEFINITION. One clock edge (R36, R43, R114), and how a word is placed where the next edge samples it. -/

namespace Sys2Proof.Machine

/-- `Step(s, E)` of R43: the operation that the word and the state before the edge select takes effect. -/
def atEdge (E : EventWord) (s : State) : Host.Outcome State Fault Refusal :=
  exec (decode (phase s) E) s

/-- One rising edge of `clk`: the next event word is sampled and exactly one operation takes effect (R114). -/
def step (s : State) : Host.Outcome State Fault Refusal :=
  atEdge (nextEvent s) (sampled s)

/-- `s` with the word placed at the head of the host's schedule, where the next edge samples it, and with the phase
that selects the operation `decodeTableWord` reads from it. RESET is selected in every state, so it needs no phase.
A number that is no event word is not placed (notes/assumptions/5.md). -/
def State.withFetchWord (s : State) (nbits w : Nat) : State :=
  match eventWordOfNat (w % 2 ^ nbits) with
  | .ok E =>
    let t := if EventWord.rst E then s else inPhase (wordPhase E) s
    { t with stim := E :: t.stim }
  | .error _ => s

end Sys2Proof.Machine
end

