-- ==== Sys2Proof/Machine/Stimulus.lean ====
section
/-! DEFINITION. The stimulus syntax of R46: the forms of a line, the event words they assemble to, and the reading of a
line of text. It is a notation (D18): the hardware always performs `Decode(s, E)`. -/

namespace Sys2Proof.Machine

/-- What a line may hold: an op, a pseudo-instruction, or a raw event word (R46). -/
inductive Stimulus where
  | op (i : Instr)
  | pixel (r g b : Byte)
  | drain
  | rep (n : Nat) (i : Instr)
  | feeds (bs : List Byte)
  | word (E : EventWord)
deriving DecidableEq, Repr

/-- The event words of a line, one per clock edge: the canonical word of each op of its expansion (R46). -/
def assemble : Stimulus → List EventWord
  | .op i => [encode i]
  | .pixel r g b => [encode (.feed r), encode (.feed g), encode (.feed b)]
  | .drain => [encode .emit, encode .emit, encode .emit, encode .emit]
  | .rep n i => List.replicate n (encode i)
  | .feeds bs => bs.map fun b => encode (.feed b)
  | .word E => [E]

/-- The event words of a program, one line after another. -/
def assembleAll (ls : List Stimulus) : List EventWord := ls.flatMap assemble

/-- A line of text: `line := [label ':'] op [';' comment]` (R46). -/
structure Line where
  label : Option (List Char)
  body : Stimulus
  comment : Option (List Char)
deriving DecidableEq, Repr

/-- Why a line of text is not in the syntax of R46. -/
inductive SyntaxError where
  /-- The part before `:` is empty or holds a space or a tab. -/
  | badLabel
  /-- No op or pseudo-instruction has that name, or the line holds none. -/
  | unknownName
  /-- The op takes other operands, or one of them is not a numeral of its range. -/
  | badOperands
deriving DecidableEq, Repr

/-- A space or a tab: what may separate the parts of a line. DESIGN CHOICE: R46 leaves spacing open
(notes/assumptions/11.md). -/
def isBlank (c : Char) : Bool := c == ' ' || c == '\t'

/-- Spaces and tabs removed at both ends. -/
def trim (cs : List Char) : List Char :=
  ((cs.dropWhile isBlank).reverse.dropWhile isBlank).reverse

/-- The text before and after the first character that meets `cut`, if there is one. -/
def cutAt (cut : Char → Bool) : List Char → Option (List Char × List Char)
  | [] => none
  | d :: ds => if cut d then some ([], ds) else (cutAt cut ds).map fun p => (d :: p.1, p.2)

/-- The text cut at every comma, each piece trimmed. -/
def commaPieces : List Char → List Char → List (List Char)
  | acc, [] => [trim acc.reverse]
  | acc, c :: cs => if c = ',' then trim acc.reverse :: commaPieces [] cs else commaPieces (c :: acc) cs

/-- The value of a digit in a base up to 16. -/
def digitValue (base : Nat) (c : Char) : Option Nat :=
  let n := c.toNat
  let v := if 48 ≤ n ∧ n ≤ 57 then n - 48
    else if 65 ≤ n ∧ n ≤ 70 then n - 55
    else if 97 ≤ n ∧ n ≤ 102 then n - 87
    else base
  if v < base then some v else none

/-- The value of a run of digits, most significant first. -/
def digitsValue (base : Nat) : Nat → List Char → Option Nat
  | acc, [] => some acc
  | acc, c :: cs =>
    match digitValue base c with
    | some v => digitsValue base (acc * base + v) cs
    | none => none

/-- A hexadecimal numeral: `0x` and exactly `hexDigits` digits. -/
def hexNumeral (hexDigits : Nat) (cs : List Char) : Option Nat :=
  match cs with
  | '0' :: 'x' :: ds => if ds.length = hexDigits then digitsValue 16 0 ds else none
  | _ => none

/-- A decimal numeral. -/
def decimalNumeral (cs : List Char) : Option Nat :=
  match cs with
  | [] => none
  | _ => digitsValue 10 0 cs

/-- `byte := '0x' hexdigit hexdigit | decimal in 0..255` (R46). -/
def parseByte (cs : List Char) : Option Byte :=
  match hexNumeral 2 cs with
  | some n => some (BitVec.ofNat 8 n)
  | none =>
    match decimalNumeral cs with
    | some n => if n ≤ 255 then some (BitVec.ofNat 8 n) else none
    | none => none

/-- Every piece of a list as a byte, or none. -/
def parseBytes : List (List Char) → Option (List Byte)
  | [] => some []
  | p :: ps =>
    match parseByte p, parseBytes ps with
    | some b, some bs => some (b :: bs)
    | _, _ => none

/-- A name and the text after it, with the spaces and tabs around both taken away: the name ends at the first space or tab.
DESIGN CHOICE: R46 leaves spacing open (notes/assumptions/11.md). -/
def nameAndRest (cs : List Char) : List Char × List Char :=
  match cutAt isBlank (trim cs) with
  | some (name, rest) => (name, trim rest)
  | none => (trim cs, [])

/-- `op := 'RESET' | 'FEED' byte | 'FEED_EOS' byte | 'EOS' | 'IDLE' | 'EMIT' | 'STALL'` (R46). -/
def parseOp (cs : List Char) : Except SyntaxError Instr :=
  let (name, rest) := nameAndRest cs
  let plain := fun i => if rest = [] then .ok i else .error .badOperands
  let withByte := fun (f : Byte → Instr) =>
    match parseByte rest with
    | some b => .ok (f b)
    | none => .error .badOperands
  if name = "RESET".toList then plain .reset
  else if name = "FEED".toList then withByte .feed
  else if name = "FEED_EOS".toList then withByte .feedEos
  else if name = "EOS".toList then plain .eos
  else if name = "IDLE".toList then plain .idle
  else if name = "EMIT".toList then plain .emit
  else if name = "STALL".toList then plain .stall
  else .error .unknownName

/-- An op, a pseudo-instruction or `.word` (R46). -/
def parseBody (cs : List Char) : Except SyntaxError Stimulus :=
  let (name, rest) := nameAndRest cs
  if name = "PIXEL".toList then
    match parseBytes (commaPieces [] rest) with
    | some [r, g, b] => .ok (.pixel r g b)
    | _ => .error .badOperands
  else if name = "DRAIN".toList then
    if rest = [] then .ok .drain else .error .badOperands
  else if name = "FEEDS".toList then
    match parseBytes (commaPieces [] rest) with
    | some bs => .ok (.feeds bs)
    | none => .error .badOperands
  else if name = ".word".toList then
    match hexNumeral 3 rest with
    | some n => .ok (.word (BitVec.ofNat 12 n))
    | none => .error .badOperands
  else if name = "REP".toList then
    match cutAt (· == ',') rest with
    | some (count, op) =>
      match decimalNumeral (trim count), parseOp op with
      | some n, .ok i => .ok (.rep n i)
      | _, _ => .error .badOperands
    | none => .error .badOperands
  else (parseOp cs).map .op

/-- A whole line of text (R46). DESIGN CHOICE (notes/assumptions/11.md): spacing, the letters of a label, where a label and a
comment begin and end, and the REP count, which R46 leaves open. -/
def parseLine (cs : List Char) : Except SyntaxError Line :=
  let (code, comment) := match cutAt (· == ';') cs with
    | some (before, after) => (before, some after)
    | none => (cs, none)
  match cutAt (· == ':') code with
  | some (label, rest) =>
    let label := trim label
    if label = [] ∨ label.any isBlank then .error .badLabel
    else (parseBody rest).map fun body => ⟨some label, body, comment⟩
  | none => (parseBody code).map fun body => ⟨none, body, comment⟩

end Sys2Proof.Machine
end

