-- ==== Sys2Proof/Machine/Transaction.lean ====
section
/-! DEFINITION. The transaction level of the spec, the normative one (R6, R10): its state, its three operations, the map
from cycle-level operations to them (R45), and the output of a byte stream. -/

namespace Sys2Proof.Machine

/-- The transaction-level operations `feed(b)`, `eos` and `reset` (R6). -/
inductive TOp where
  | feed (b : Byte)
  | eos
  | reset
deriving DecidableEq, Repr

/-- The transaction-level state (R10) together with the output sequence `out` that `Emit` builds (R108). -/
structure TState where
  buf : Vector Byte 3
  fill : Fin 3
  out : List Byte
deriving DecidableEq, Repr

/-- The start of a transaction-level run: an empty buffer and no output (R131). -/
def TState.start : TState := ⟨#v[0, 0, 0], 0, []⟩

/-- `feed(b)`: the byte is stored at the fill index; the third byte of a pixel converts the pixel and emits C, M, Y, K
(R82, transaction level). -/
def TState.feed (b : Byte) (t : TState) : TState :=
  let buf := t.buf.set t.fill.val b t.fill.isLt
  if t.fill = 2 then ⟨buf, 0, t.out ++ (convert buf[0] buf[1] b).toList⟩
  else ⟨buf, t.fill + 1, t.out⟩

/-- `eos`: any partial pixel is discarded, nothing is emitted (R85). -/
def TState.eos (t : TState) : TState := { t with fill := 0 }

/-- `reset`: `fill <- 0`, `buf <- [0, 0, 0]`, nothing is emitted (R131). -/
def TState.reset (t : TState) : TState := { t with buf := #v[0, 0, 0], fill := 0 }

/-- One transaction-level operation. -/
def TState.apply (t : TState) : TOp → TState
  | .feed b => t.feed b
  | .eos => t.eos
  | .reset => t.reset

/-- Transaction-level operations in sequence. -/
def TState.applyAll (t : TState) (ops : List TOp) : TState := ops.foldl TState.apply t

/-- T(A): the output byte sequence of the operations A from the start state (R107). -/
def transactionOutput (ops : List TOp) : List Byte := (TState.start.applyAll ops).out

/-- The transaction-level operations of a cycle-level operation (R45). -/
def transactionOps : Instr → List TOp
  | .reset => [.reset]
  | .feed b => [.feed b]
  | .feedEos b => [.feed b, .eos]
  | .eos => [.eos]
  | .idle => []
  | .emit => []
  | .stall => []

/-- The CMYK bytes of a stream of RGB bytes: CONVERT of each successive triple, in order; a trailing partial pixel gives
nothing (R33, R34, R86). -/
def convertStream : List Byte → List Byte
  | r :: g :: b :: rest => (convert r g b).toList ++ convertStream rest
  | _ => []

end Sys2Proof.Machine
end

