-- ==== Sys2Proof/Machine/Run.lean ====
section
/-! DEFINITION. What is read off a finite run of the machine: which operations took effect in which states, the accepted
transaction-level operations, the bytes sent, and the bytes that resets lost (R105 to R108). -/

namespace Sys2Proof.Machine

/-- The operation that the next edge performs (R43). -/
def nextOp (s : State) : Instr := decode (phase s) (nextEvent s)

/-- `k` edges of the run from `s` (R108). It is the host's `Host.Core.run` of the machine, with the state type written out
(`runFor_eq_core_run` in Sys2Proof/Laws/Step.lean). -/
def runFor : Nat → State → Host.Outcome State Fault Refusal
  | 0, s => .next s
  | k + 1, s =>
    match step s with
    | .next t => runFor k t
    | .fault r => .fault r
    | .refused r => .refused r

/-- The first `k` edges of the run from `s`: for each the state before it and the operation it performs. -/
def history : Nat → State → List (State × Instr)
  | 0, _ => []
  | k + 1, s =>
    (s, nextOp s) :: match step s with
      | .next t => history k t
      | .fault _ => []
      | .refused _ => []

/-- The sequence A of R107: the operations of the run mapped to the transaction level by R45. -/
def acceptedOps (h : List (State × Instr)) : List TOp := h.flatMap fun e => transactionOps e.2

/-- The sequence O of R107: the bytes sent by the EMITs of the run, in edge order. -/
def sentBytes (h : List (State × Instr)) : List Byte :=
  h.filterMap fun e => if e.2 = .emit then some (outData e.1) else none

/-- No RESET edge of the run falls while `out_cnt != 0` (the premise of R107 item 1 and of R38). -/
def lossless (h : List (State × Instr)) : Bool :=
  h.all fun e => !(decide (e.2 = .reset) && outValid e.1)

/-- For each pixel completed in a run, in order, how many of its four bytes were not sent (R107 item 2): 0 when its last
byte went out, n when a RESET fell at `out_cnt = n`, and n when the run ended there. -/
def lostPerPixel (h : List (State × Instr)) (final : State) : List Nat :=
  (h.filterMap fun e => match e.2 with
    | .reset => if e.1.outCnt = 0 then none else some e.1.outCnt.val
    | .emit => if e.1.outCnt = 1 then some 0 else none
    | _ => none)
  ++ if final.outCnt = 0 then [] else [final.outCnt.val]

end Sys2Proof.Machine
end

