-- ==== Sys2Proof/Safety.lean ====
section
/-! DEFINITION. What statements about the CORE are made in: its invariants, the registers at reset, the relation between the
two levels, and which states the outside cannot tell apart. -/

namespace Sys2Proof.Machine

/-- The invariant of R18: `out_cnt != 0` implies `fill = 0`. -/
abbrev State.Inv (s : State) : Prop := s.outCnt ≠ 0 → s.fill = 0

/-- In the output phase the output register holds CONVERT of the bytes in the buffer (R14, R83, R88). -/
abbrev State.HoldsItsPixel (s : State) : Prop :=
  s.outCnt ≠ 0 → s.outReg = convert s.buf[0] s.buf[1] s.buf[2]

/-- At least one of the C, M, Y slots of the output register is 0, as in every result of CONVERT (R67). -/
abbrev State.SomeSlotZero (s : State) : Prop :=
  s.outReg[0] = 0 ∨ s.outReg[1] = 0 ∨ s.outReg[2] = 0

/-- Every register of the CORE at its value of R20, whatever the host has scheduled or received. -/
abbrev State.RegistersReset (s : State) : Prop :=
  s.buf = #v[0, 0, 0] ∧ s.fill = 0 ∧ s.outReg = #v[0, 0, 0, 0] ∧ s.outCnt = 0

/-- The relation of R107 between the levels: the same buffer and fill counter, and the transaction-level output is what
the sink has taken followed by the bytes still in the output register. -/
abbrev Refines (s : State) (t : TState) : Prop :=
  t.buf = s.buf ∧ t.fill = s.fill ∧ t.out = s.sink ++ unsent s

/-- Two states that differ at most in registers nothing can observe: buffer slots at or above `fill`, and the output
register while it holds nothing to send (R12, R20, R22, 93 entry I2). -/
abbrev SameButStale (s t : State) : Prop :=
  s.fill = t.fill ∧ s.outCnt = t.outCnt ∧ s.stim = t.stim ∧ s.sink = t.sink ∧ s.edge = t.edge ∧
  (∀ i : Fin 3, i < s.fill → s.buf[i] = t.buf[i]) ∧
  (s.outCnt ≠ 0 → s.outReg = t.outReg)

end Sys2Proof.Machine
end

