-- ==== Sys2Proof/Certificates/Slice0/Obligations.lean ====
section
/-! DEFINITION. The statements about the CORE that are offered to the provers. -/

open Sys2Proof Sys2Proof.Machine

/-! ## The Channel Converter -/

/-- R61: step 1 subtracts in 8 bits without borrow, and equals the bitwise complement. -/
def Obligations.InvertedChannelIsComplement : Prop :=
  ∀ x : Byte, x.toNat ≤ 255 ∧ invert x ≤ 255 ∧ invert x + x.toNat = 255 ∧ invert x = (~~~x).toNat

/-- R62: K = 255 exactly for (0,0,0), whose result is (0,0,0,255). Every other input has K <= 254, so the divisor iK is in
[1,255]. -/
def Obligations.KeyIs255ExactlyForBlack : Prop :=
  (∀ r g b : Byte, keyOf r g b ≤ 255) ∧
  (∀ r g b : Byte, keyOf r g b = 255 ↔ r = 0 ∧ g = 0 ∧ b = 0) ∧
  convert 0 0 0 = #v[0, 0, 0, 255] ∧
  ∀ r g b : Byte, ¬ (r = 0 ∧ g = 0 ∧ b = 0) →
    keyOf r g b ≤ 254 ∧ 1 ≤ 255 - keyOf r g b ∧ 255 - keyOf r g b ≤ 255

/-- R63: each of C, M, Y and K is in [0,255] before it is narrowed, so each output byte carries its result unchanged; the
difference iX - K is never negative. -/
def Obligations.ConvertResultsFitBytes : Prop :=
  ∀ r g b : Byte,
    (keyOf r g b ≤ invert r ∧ keyOf r g b ≤ invert g ∧ keyOf r g b ≤ invert b) ∧
    ∀ j : Fin 4, (convertExact r g b)[j] ≤ 255 ∧ (convert r g b)[j].toNat = (convertExact r g b)[j]

/-- R64: the range of every value in the datapath, with the largest product 65025 reached at (0,0,255) and (255,0,0). -/
def Obligations.DatapathRanges : Prop :=
  (∀ r g b : Byte,
    let k := keyOf r g b
    k ≤ 255 ∧ (k ≠ 255 → 1 ≤ 255 - k ∧ 255 - k ≤ 255) ∧
    ∀ x ∈ [r, g, b],
      invert x ≤ 255 ∧ k ≤ invert x ∧ invert x - k ≤ 255 ∧
      channelProduct (invert x) k ≤ 65025 ∧ channelProduct (invert x) k < 2 ^ 16 ∧
      channel (invert x) k ≤ 255 ∧
      (channelProduct (invert x) k = 65025 ↔ k = 0 ∧ invert x = 255)) ∧
  channelProduct (invert 0) (keyOf 0 0 255) = 65025 ∧ channelProduct (invert 0) (keyOf 255 0 0) = 65025

/-- R65: each channel is the floor of 255 (iX - K) / iK: the product is formed first, the remainder is discarded, and
dividing first would give another value. -/
def Obligations.ChannelsAreFloorsOfTheFullProduct : Prop :=
  (∀ r g b : Byte, keyOf r g b ≠ 255 →
    let k := keyOf r g b
    let iK := 255 - k
    let q := convert r g b
    q[3].toNat = min (min (255 - r.toNat) (255 - g.toNat)) (255 - b.toNat) ∧
    (q[0].toNat * iK ≤ 255 * (255 - r.toNat - k) ∧ 255 * (255 - r.toNat - k) < (q[0].toNat + 1) * iK) ∧
    (q[1].toNat * iK ≤ 255 * (255 - g.toNat - k) ∧ 255 * (255 - g.toNat - k) < (q[1].toNat + 1) * iK) ∧
    (q[2].toNat * iK ≤ 255 * (255 - b.toNat - k) ∧ 255 * (255 - b.toNat - k) < (q[2].toNat + 1) * iK)) ∧
  convert 100 150 200 = #v[127, 63, 0, 55] ∧ 255 * (100 / 200) = 0

/-- R66: the closed form with Mx = max(R, G, B) computes the same function. -/
def Obligations.ConvertHasClosedForm : Prop :=
  ∀ r g b : Byte,
    let mx := max (max r.toNat g.toNat) b.toNat
    (mx = 0 → convert r g b = #v[0, 0, 0, 255]) ∧
    (mx ≠ 0 →
      keyOf r g b = 255 - mx ∧ 255 - keyOf r g b = mx ∧
      (∀ x ∈ [r, g, b], invert x - keyOf r g b = mx - x.toNat) ∧
      (convert r g b)[0].toNat = 255 * (mx - r.toNat) / mx ∧
      (convert r g b)[1].toNat = 255 * (mx - g.toNat) / mx ∧
      (convert r g b)[2].toNat = 255 * (mx - b.toNat) / mx ∧
      (convert r g b)[3].toNat = 255 - mx)

/-- R67: for every input at least one of C, M and Y is 0. The channel whose inverted value equals K is 0. -/
def Obligations.OneChannelIsZero : Prop :=
  ∀ r g b : Byte,
    (invert r = keyOf r g b → (convert r g b)[0] = 0) ∧
    (invert g = keyOf r g b → (convert r g b)[1] = 0) ∧
    (invert b = keyOf r g b → (convert r g b)[2] = 0) ∧
    ((convert r g b)[0] = 0 ∨ (convert r g b)[1] = 0 ∨ (convert r g b)[2] = 0) ∧
    (keyOf r g b = 255 → (convert r g b)[0] = 0 ∧ (convert r g b)[1] = 0 ∧ (convert r g b)[2] = 0)

/-! ## Event words and decode -/

/-- The five signals stand at their bits of the 12-bit event word (spec/30_encoding.md section 2). Two clauses are the model's
choice: a number of 4096 or more is refused by the name widerThanTwelveBits (log entry 5, DESIGN CHOICE), and the host's schedule
is a list in the state, of which one edge takes one word (log entry 1, DESIGN CHOICE). -/
def Obligations.EventWordHoldsTheFiveSignals : Prop :=
  (∀ (r e v o : Bool) (d : Byte),
    let E := EventWord.ofSignals r e v o d
    E[11] = r ∧ E[10] = e ∧ E[9] = v ∧ E[8] = o ∧ E.extractLsb' 0 8 = d ∧
    EventWord.rst E = r ∧ EventWord.inEos E = e ∧ EventWord.inValid E = v ∧ EventWord.outReady E = o ∧
    EventWord.inData E = d ∧ (EventWord.inData E).toNat = E.toNat % 256) ∧
  (∀ E : EventWord, EventWord.ofSignals (EventWord.rst E) (EventWord.inEos E) (EventWord.inValid E)
    (EventWord.outReady E) (EventWord.inData E) = E) ∧
  (∀ w : Nat, 4096 ≤ w → eventWordOfNat w = .error .widerThanTwelveBits) ∧
  (∀ w : Nat, w < 4096 → ∃ E, eventWordOfNat w = .ok E ∧ E.toNat = w) ∧
  (∀ (s : State) (E : EventWord) (rest : List EventWord), s.stim = E :: rest →
    nextEvent s = E ∧ (sampled s).stim = rest)

/-- Words of spec/95_test_vectors.md section 4 and its programs, each read in its phase. -/
def Obligations.SpecEventWordsDecode : Prop :=
  decode .input 0x2AB = .feed 0xAB ∧ decode .input 0x3FF = .feed 0xFF ∧
  decode .input 0x612 = .feedEos 0x12 ∧ decode .input 0x4EE = .eos ∧
  decode .input 0x000 = .idle ∧ decode .input 0x100 = .idle ∧
  decode .output 0x100 = .emit ∧ decode .output 0x3AA = .emit ∧
  decode .output 0x000 = .stall ∧ decode .output 0x6AA = .stall ∧ decode .output 0x2AA = .stall ∧
  decode .input 0xBFF = .reset ∧ decode .output 0x9FF = .reset ∧ decode .input 0x800 = .reset

/-- The canonical word of every operation (R46) decodes to it, data byte included, in every phase that its row allows, and
what a word decodes to can always be selected in its phase. -/
def Obligations.DecodeInvertsEncode : Prop :=
  (∀ (p : Phase) (i : Instr), i.wellFormedIn p = true → decode p (encode i) = i) ∧
  (∀ (p : Phase) (E : EventWord), (decode p E).wellFormedIn p = true)

/-- R43: decode picks the operation its pseudocode names, exactly one row of the table applies to each pair of state and
event word and it is that operation's, no row is CONVERT's, and a step is that operation applied to the state. -/
def Obligations.DecodeSelectsExactlyOneRow : Prop :=
  (∀ (s : State) (E : EventWord),
    (E[11] = true → decode (phase s) E = .reset) ∧
    (E[11] = false → s.outCnt = 0 →
      (E[10] = false → E[9] = true → decode (phase s) E = .feed (E.extractLsb' 0 8)) ∧
      (E[10] = true → E[9] = true → decode (phase s) E = .feedEos (E.extractLsb' 0 8)) ∧
      (E[10] = true → E[9] = false → decode (phase s) E = .eos) ∧
      (E[10] = false → E[9] = false → decode (phase s) E = .idle)) ∧
    (E[11] = false → s.outCnt ≠ 0 →
      (E[8] = true → decode (phase s) E = .emit) ∧
      (E[8] = false → decode (phase s) E = .stall)) ∧
    (∃ r, opcodeTable.filter (fun r => r.applies (phase s) E) = [r] ∧
      r.mnemonic = (decode (phase s) E).mnemonic) ∧
    atEdge E s = exec (decode (phase s) E) s) ∧
  opcodeTable.map (fun r => (r.mnemonic, r.mask.toNat, r.pattern.toNat, r.cond)) =
    [("RESET", 0x800, 0x800, none), ("FEED", 0xE00, 0x200, some .input), ("FEED_EOS", 0xE00, 0x600, some .input),
     ("EOS", 0xE00, 0x400, some .input), ("IDLE", 0xE00, 0x000, some .input), ("EMIT", 0x900, 0x100, some .output),
     ("STALL", 0x900, 0x000, some .output)]

/-- R44: every event word is legal in every state, no operation faults, and fields outside the row that applies have no
effect on the state after the edge. -/
def Obligations.EveryWordIsLegalAndIgnoredFieldsDoNothing : Prop :=
  ∀ s : State,
    (∀ E : EventWord, ∃ t, atEdge E s = .next t) ∧
    (∀ E F : EventWord, E[11] = true → F[11] = true → atEdge E s = atEdge F s) ∧
    (∀ E F : EventWord, s.outCnt = 0 → E[11] = F[11] → E[10] = F[10] → E[9] = F[9] →
      (E[9] = true → E.extractLsb' 0 8 = F.extractLsb' 0 8) → atEdge E s = atEdge F s) ∧
    (∀ E F : EventWord, s.outCnt ≠ 0 → E[11] = F[11] → E[8] = F[8] → atEdge E s = atEdge F s)

/-- A line of the stimulus syntax (R46) that holds an op performs that op in a phase that allows it, and the
pseudo-instructions expand as the table of R46 says. -/
def Obligations.AssembledLinesPerformTheirOps : Prop :=
  (∀ (i : Instr) (s : State) (rest : List EventWord),
    i.wellFormedIn (phase s) = true → s.stim = assemble (.op i) ++ rest →
    step s = exec i { s with stim := rest, edge := s.edge + 1 }) ∧
  (∀ r g b : Byte, assemble (.pixel r g b) = assembleAll [.op (.feed r), .op (.feed g), .op (.feed b)]) ∧
  assemble .drain = assembleAll [.op .emit, .op .emit, .op .emit, .op .emit] ∧
  (∀ (n : Nat) (i : Instr), assemble (.rep n i) = assembleAll (List.replicate n (.op i))) ∧
  (∀ bs : List Byte, assemble (.feeds bs) = assembleAll (bs.map fun b => .op (.feed b))) ∧
  (∀ E : EventWord, assemble (.word E) = [E])

/-! ## Ports -/

/-- R80 and R100: `in_ready = (out_cnt == 0)`, `out_valid = (out_cnt != 0)`, each the complement of the other, so at any edge
at most one of the two channels transfers, and the input channel accepts nothing while bytes are unsent. -/
def Obligations.ReadyAndValidAreComplements : Prop :=
  ∀ s : State,
    (inReady s = true ↔ s.outCnt = 0) ∧ (outValid s = true ↔ s.outCnt ≠ 0) ∧ outValid s = !inReady s ∧
    ∀ E : EventWord,
      (s.outCnt ≠ 0 → inputTransfer s E = false) ∧ (s.outCnt = 0 → outputTransfer s E = false) ∧
      ¬ (inputTransfer s E = true ∧ outputTransfer s E = true)

/-- R81: when an input transfer happens, and which operation it is by the two strobes; the byte is `in_data` at that edge. -/
def Obligations.InputTransferSelectsByStrobes : Prop :=
  ∀ (s : State) (E : EventWord),
    (inputTransfer s E = true ↔ E[11] = false ∧ inReady s = true ∧ (E[9] = true ∨ E[10] = true)) ∧
    (inputTransfer s E = true →
      (E[9] = true → E[10] = false → decode (phase s) E = .feed (E.extractLsb' 0 8)) ∧
      (E[9] = true → E[10] = true → decode (phase s) E = .feedEos (E.extractLsb' 0 8)) ∧
      (E[9] = false → E[10] = true → decode (phase s) E = .eos)) ∧
    (inputTransfer s E = false →
      decode (phase s) E ≠ .eos ∧ ∀ b, decode (phase s) E ≠ .feed b ∧ decode (phase s) E ≠ .feedEos b)

/-- `out_data` is C, M, Y, K at `out_cnt` 4, 3, 2, 1, and in the output phase stable from one edge to the next while no EMIT or RESET
happens (spec/42_serializer.md section 1). At `out_cnt` 0 it is an arbitrary byte; that this byte is the free value
Config.freeOutData applied to the edge number is the model's choice (log entry 3, DESIGN CHOICE). -/
def Obligations.OutDataPresentsThePixelInOrder : Prop :=
  ∀ s : State,
    (s.outCnt = 4 → outData s = s.outReg[0]) ∧ (s.outCnt = 3 → outData s = s.outReg[1]) ∧
    (s.outCnt = 2 → outData s = s.outReg[2]) ∧ (s.outCnt = 1 → outData s = s.outReg[3]) ∧
    (s.outCnt = 0 → outData s = Config.freeOutData s.edge) ∧
    (s.outCnt ≠ 0 → nextOp s ≠ .emit → nextOp s ≠ .reset →
      ∃ t, step s = .next t ∧ t.outCnt ≠ 0 ∧ outData t = outData s)

/-- The sink takes a byte exactly at an output transfer, and then it is the byte on `out_data`; each edge moves at most one
byte. -/
def Obligations.SinkTakesTheOfferedByteAtATransfer : Prop :=
  ∀ s t : State, step s = .next t →
    t.sink = if outputTransfer s (nextEvent s) then s.sink ++ [outData s] else s.sink

/-! ## The seven operations -/

/-- A step is the operation decoded from the word sampled at the edge, applied to the state whose schedule has moved on by
that word. With no word listed the word is the model's free value (log entry 1). -/
def Obligations.StepRunsTheDecodedOperation : Prop :=
  (∀ (s : State) (E : EventWord) (rest : List EventWord) (i : Instr),
    s.stim = E :: rest → decode (phase s) E = i → i.wellFormedIn (phase s) = true →
    step s = exec i { s with stim := rest, edge := s.edge + 1 }) ∧
  (∀ s : State, s.stim = [] →
    step s = exec (decode (phase s) (Config.hostEvent s.edge)) { s with edge := s.edge + 1 })

/-- R130: RESET, by any word with `rst = 1` and in any state, puts every register at its reset value and nothing else happens;
afterwards `in_ready = 1` and `out_valid = 0`, and resetting again changes nothing more. -/
def Obligations.ResetClearsEveryRegister : Prop :=
  ∀ s : State,
    (∀ E : EventWord, E[11] = true → decode (phase s) E = .reset) ∧
    let t : State := { s with buf := #v[0, 0, 0], fill := 0, outReg := #v[0, 0, 0, 0], outCnt := 0 }
    exec .reset s = .next t ∧ exec .reset t = .next t ∧ inReady t = true ∧ outValid t = false

/-- R82: FEED(b) stores the byte in slot `fill` and counts it, or completes the pixel at `fill = 2`, at the cycle level and at the
transaction level; nothing else changes. -/
def Obligations.FeedStoresOrCompletes : Prop :=
  (∀ (s : State) (E : EventWord), s.outCnt = 0 → E[11] = false → E[10] = false → E[9] = true →
    decode (phase s) E = .feed (E.extractLsb' 0 8)) ∧
  (∀ (s : State) (b : Byte), s.outCnt = 0 →
    (s.fill = 0 → exec (.feed b) s = .next { s with buf := #v[b, s.buf[1], s.buf[2]], fill := 1 }) ∧
    (s.fill = 1 → exec (.feed b) s = .next { s with buf := #v[s.buf[0], b, s.buf[2]], fill := 2 }) ∧
    (s.fill = 2 →
      let t : State := { s with
        buf := #v[s.buf[0], s.buf[1], b], outReg := convert s.buf[0] s.buf[1] b, outCnt := 4, fill := 0 }
      exec (.feed b) s = .next t ∧ outValid t = true ∧ inReady t = false)) ∧
  (∀ (t : TState) (b : Byte),
    (t.fill = 0 → t.apply (.feed b) = ⟨#v[b, t.buf[1], t.buf[2]], 1, t.out⟩) ∧
    (t.fill = 1 → t.apply (.feed b) = ⟨#v[t.buf[0], b, t.buf[2]], 2, t.out⟩) ∧
    (t.fill = 2 → t.apply (.feed b) =
      ⟨#v[t.buf[0], t.buf[1], b], 0, t.out ++ (convert t.buf[0] t.buf[1] b).toList⟩))

/-- R83: pixel completion, by FEED or FEED_EOS, loads CONVERT of the two stored bytes and the byte being accepted, all at the one
edge; it is CONVERT of the three bytes then in the buffer, and the transaction level emits the same four bytes. -/
def Obligations.CompletionLoadsThePixel : Prop :=
  ∀ (s : State) (b : Byte), s.outCnt = 0 → s.fill = 2 →
    let t : State := { s with
      buf := #v[s.buf[0], s.buf[1], b], outReg := convert s.buf[0] s.buf[1] b, outCnt := 4, fill := 0 }
    exec (.feed b) s = .next t ∧ exec (.feedEos b) s = .next t ∧
    t.outReg = convert t.buf[0] t.buf[1] t.buf[2] ∧
    unsent t = (convert s.buf[0] s.buf[1] b).toList ∧
    ∀ u : TState, u.buf = s.buf → u.fill = 2 → (u.apply (.feed b)).out = u.out ++ unsent t

/-- R84: FEED_EOS(b) is the feed and then the end of the stream: a byte that completes a pixel is emitted with it, any other byte
is stored and discarded with its partial pixel; nothing else changes. -/
def Obligations.FeedEosFeedsThenEndsTheStream : Prop :=
  (∀ (s : State) (E : EventWord), s.outCnt = 0 → E[11] = false → E[10] = true → E[9] = true →
    decode (phase s) E = .feedEos (E.extractLsb' 0 8)) ∧
  (∀ (s : State) (b : Byte), s.outCnt = 0 →
    (s.fill = 0 → exec (.feedEos b) s = .next { s with buf := #v[b, s.buf[1], s.buf[2]], fill := 0 }) ∧
    (s.fill = 1 → exec (.feedEos b) s = .next { s with buf := #v[s.buf[0], b, s.buf[2]], fill := 0 }) ∧
    (s.fill = 2 → exec (.feedEos b) s =
      .next { s with buf := #v[s.buf[0], s.buf[1], b], outReg := convert s.buf[0] s.buf[1] b, outCnt := 4, fill := 0 }) ∧
    (∃ t, exec (.feed b) s = .next t ∧ exec (.feedEos b) s = .next { t with fill := 0 })) ∧
  (∀ b : Byte, transactionOps (.feedEos b) = [.feed b, .eos])

/-- R85: EOS discards any partial pixel and does nothing else: no output, no conversion, no error; in the output phase it is not
accepted. -/
def Obligations.EosDiscardsThePartialPixel : Prop :=
  (∀ (s : State) (E : EventWord), s.outCnt = 0 → E[11] = false → E[10] = true → E[9] = false →
    decode (phase s) E = .eos) ∧
  (∀ s : State, s.outCnt = 0 → exec .eos s = .next { s with fill := 0 }) ∧
  (∀ s : State, s.outCnt = 0 → s.fill = 0 → exec .eos s = .next s) ∧
  (∀ (s : State) (E : EventWord), s.outCnt ≠ 0 → decode (phase s) E ≠ .eos) ∧
  (∀ t : TState, t.apply .eos = { t with fill := 0 })

/-- R87: IDLE is the edge of the input phase with neither strobe, whatever `out_ready` and the data are, and changes no
state. -/
def Obligations.IdleChangesNothing : Prop :=
  (∀ (s : State) (E : EventWord), s.outCnt = 0 → E[11] = false → E[10] = false → E[9] = false →
    decode (phase s) E = .idle) ∧
  (∀ s : State, exec .idle s = .next s)

/-- R102: EMIT, whatever the input signals are, sends `out_reg[4 - out_cnt]` and lowers `out_cnt` by 1; nothing else changes. The
fourth byte brings the CORE back to the input phase. -/
def Obligations.EmitSendsTheNextByte : Prop :=
  (∀ (s : State) (E : EventWord), s.outCnt ≠ 0 → E[11] = false → E[8] = true → decode (phase s) E = .emit) ∧
  (∀ s : State,
    (s.outCnt = 4 → exec .emit s = .next { s with sink := s.sink ++ [s.outReg[0]], outCnt := 3 }) ∧
    (s.outCnt = 3 → exec .emit s = .next { s with sink := s.sink ++ [s.outReg[1]], outCnt := 2 }) ∧
    (s.outCnt = 2 → exec .emit s = .next { s with sink := s.sink ++ [s.outReg[2]], outCnt := 1 }) ∧
    (s.outCnt = 1 →
      let t : State := { s with sink := s.sink ++ [s.outReg[3]], outCnt := 0 }
      exec .emit s = .next t ∧ outValid t = false ∧ inReady t = true))

/-- R103: STALL, whatever the input signals are, changes no state; `out_valid` stays 1 and the byte offered stays the same, for any
number of consecutive edges. -/
def Obligations.StallHoldsTheOfferedByte : Prop :=
  (∀ (s : State) (E : EventWord), s.outCnt ≠ 0 → E[11] = false → E[8] = false → decode (phase s) E = .stall) ∧
  (∀ s : State, exec .stall s = .next s) ∧
  (∀ (s : State) (es rest : List EventWord), s.outCnt ≠ 0 → s.stim = es ++ rest →
    (∀ E ∈ es, E[11] = false ∧ E[8] = false) →
    ∃ t, runFor es.length s = .next t ∧ outValid t = true ∧ outData t = outData s ∧
      t = { s with stim := rest, edge := s.edge + es.length })

/-- R88: in the output phase `in_ready = 0`, the edge performs EMIT or STALL, and the input signals have no effect; a byte or EOS
offered there is not stored. -/
def Obligations.InputIsIgnoredInTheOutputPhase : Prop :=
  ∀ s : State, s.outCnt ≠ 0 →
    inReady s = false ∧
    (∀ E : EventWord, E[11] = false → decode (phase s) E = .emit ∨ decode (phase s) E = .stall) ∧
    (∀ (e v e' v' o : Bool) (d d' : Byte),
      atEdge (EventWord.ofSignals false e v o d) s = atEdge (EventWord.ofSignals false e' v' o d') s) ∧
    (∀ E : EventWord, E[11] = false → ∃ t, atEdge E s = .next t ∧ t.buf = s.buf ∧ t.fill = s.fill ∧ t.outReg = s.outReg)

/-- R104: in the input phase `out_ready` is ignored: no byte is sent, and the state after the edge does not depend on it. -/
def Obligations.ReadyIsIgnoredInTheInputPhase : Prop :=
  ∀ s : State, s.outCnt = 0 →
    ∀ (r e v : Bool) (d : Byte),
      ∃ t, atEdge (EventWord.ofSignals r e v true d) s = .next t ∧
        atEdge (EventWord.ofSignals r e v false d) s = .next t ∧ t.sink = s.sink

/-- An operation whose row does not hold in the phase of the state does nothing, and every operation acts in every state as the
hardware does at an edge with its canonical word. Where the phase does not hold this is the model's reading of R88, R104 and R46
(log entry 6). -/
def Obligations.ExecIsTheEdgeOfTheCanonicalWord : Prop :=
  (∀ (i : Instr) (s : State), exec i s = atEdge (encode i) s) ∧
  (∀ (i : Instr) (s : State), i.wellFormedIn (phase s) = false → exec i s = .next s)

/-! ## Whole-machine rules -/

/-- No operation and no step faults or is refused: every one answers a next state. -/
def Obligations.NothingFaults : Prop :=
  (∀ (i : Instr) (s : State), ∃ t, exec i s = .next t) ∧ (∀ s : State, ∃ t, step s = .next t) ∧
  (∀ (k : Nat) (s : State), ∃ t, runFor k s = .next t ∧ (history k s).length = k)

/-- R114: exactly one operation takes effect at each edge; `rst` wins over everything else at it; an input and an output transfer
never meet; in FEED_EOS the feed comes first. -/
def Obligations.SimultaneousEventsAreSettled : Prop :=
  (∀ s : State, step s = exec (decode (phase s) (nextEvent s)) (sampled s)) ∧
  (∀ (s : State) (E : EventWord), E[11] = true →
    atEdge E s = exec .reset s ∧ inputTransfer s E = false ∧ outputTransfer s E = false) ∧
  (∀ (s : State) (E : EventWord), ¬ (inputTransfer s E = true ∧ outputTransfer s E = true)) ∧
  (∀ (s : State) (b : Byte), s.outCnt = 0 →
    ∃ t, exec (.feed b) s = .next t ∧ exec (.feedEos b) s = .next { t with fill := 0 })

/-- Which operations write which register: `buf` in slot `fill` by a feed, or all of it by RESET; `out_reg` by completion or RESET;
`fill` by the input-side operations or RESET; `out_cnt` by completion, EMIT or RESET. Only EMIT sends a byte, and no operation
touches the host's schedule. -/
def Obligations.OnlyTheNamedOperationsWriteEachRegister : Prop :=
  ∀ (i : Instr) (s t : State), exec i s = .next t →
    (t.buf ≠ s.buf → i = .reset ∨ ∃ b, (i = .feed b ∨ i = .feedEos b) ∧ s.outCnt = 0 ∧ t.buf[s.fill] = b) ∧
    (i ≠ .reset → ∀ j : Fin 3, j ≠ s.fill → t.buf[j] = s.buf[j]) ∧
    (t.fill ≠ s.fill → i = .reset ∨ i = .eos ∨ ∃ b, i = .feed b ∨ i = .feedEos b) ∧
    (t.outReg ≠ s.outReg → i = .reset ∨
      ∃ b, (i = .feed b ∨ i = .feedEos b) ∧ s.fill = 2 ∧ s.outCnt = 0 ∧ t.outReg = convert s.buf[0] s.buf[1] b) ∧
    (t.outCnt ≠ s.outCnt →
      (i = .reset ∧ t.outCnt = 0) ∨ (i = .emit ∧ t.outCnt.val + 1 = s.outCnt.val) ∨
      ∃ b, (i = .feed b ∨ i = .feedEos b) ∧ s.fill = 2 ∧ s.outCnt = 0 ∧ t.outCnt = 4) ∧
    (t.sink ≠ s.sink → i = .emit ∧ s.outCnt ≠ 0) ∧
    t.stim = s.stim ∧ t.edge = s.edge

/-- The state holds while nothing is transferred: any number of IDLE edges in the input phase, and of STALL edges in the output
phase, only moves the schedule on. -/
def Obligations.StateHoldsWhileNothingTransfers : Prop :=
  ∀ (s : State) (es rest : List EventWord), s.stim = es ++ rest →
    ((s.outCnt = 0 ∧ ∀ E ∈ es, E[11] = false ∧ E[10] = false ∧ E[9] = false) ∨
      (s.outCnt ≠ 0 ∧ ∀ E ∈ es, E[11] = false ∧ E[8] = false)) →
    runFor es.length s = .next { s with stim := rest, edge := s.edge + es.length }

/-- The state right after reset: every register at the value of R20, `in_ready = 1`, `out_valid = 0`, and the invariants hold. -/
def Obligations.ResetStateMeetsTheInvariants : Prop :=
  State.reset.buf = #v[0, 0, 0] ∧ State.reset.fill = 0 ∧ State.reset.outReg = #v[0, 0, 0, 0] ∧ State.reset.outCnt = 0 ∧
  inReady State.reset = true ∧ outValid State.reset = false ∧
  State.reset.Inv ∧ State.reset.HoldsItsPixel ∧ State.reset.SomeSlotZero

/-- R18: `out_cnt != 0` implies `fill = 0`. Every step keeps it, from every state that meets it, so every run from registers at their
reset values meets it. -/
def Obligations.FillIsZeroWhileBytesAreUnsent : Prop :=
  (∀ s t : State, s.Inv → step s = .next t → t.Inv) ∧
  (∀ (k : Nat) (s t : State), s.RegistersReset → runFor k s = .next t → t.outCnt ≠ 0 → t.fill = 0)

/-- Every step keeps the output register at CONVERT of the buffer while bytes are unsent. -/
def Obligations.OutputRegisterHoldsItsPixel : Prop :=
  ∀ s t : State, s.HoldsItsPixel → step s = .next t → t.HoldsItsPixel

/-- Every step keeps at least one of the C, M, Y slots of the output register at 0, so not every content of it is reachable. -/
def Obligations.SomeOutputSlotStaysZero : Prop :=
  ∀ s t : State, s.SomeSlotZero → step s = .next t → t.SomeSlotZero

/-- Every pair of counter values that R18 allows is reached from reset by some schedule. -/
def Obligations.EveryAllowedCounterPairIsReached : Prop :=
  ∀ (f : Fin 3) (c : Fin 5), (c ≠ 0 → f = 0) →
    ∃ (es : List EventWord) (t : State),
      runFor es.length { State.reset with stim := es } = .next t ∧ t.fill = f ∧ t.outCnt = c

/-- Stale registers cannot be observed: two states that differ only in buffer slots at or above `fill`, and in the output register
when it holds nothing to send, show the same ports, and stay so under every step, sending the same bytes. At `out_cnt` 0 the equality
of `out_data` is the model's choice (log entry 3, DESIGN CHOICE): the free byte is indexed by the edge number, which the two states
share, while the spec leaves that byte open and lets no claim read it. That two states with an empty schedule sample the same word is
the model's choice too (log entry 1, DESIGN CHOICE). -/
def Obligations.StaleRegistersAreUnobservable : Prop :=
  ∀ s t : State, SameButStale s t →
    inReady s = inReady t ∧ outValid s = outValid t ∧ outData s = outData t ∧
    ∃ s' t', step s = .next s' ∧ step t = .next t' ∧ SameButStale s' t'

/-- A stream starts after RESET, after an accepted EOS and after a FEED_EOS that completes nothing: the next three bytes are the R, G
and B of one pixel, whatever was in the buffer before. -/
def Obligations.StreamStartFramesTheNextPixel : Prop :=
  ∀ (s : State) (E : EventWord) (r g b : Byte) (rest : List EventWord),
    s.stim = E :: assemble (.pixel r g b) ++ rest →
    (E[11] = true ∨ (s.outCnt = 0 ∧ E[10] = true ∧ (E[9] = true → s.fill ≠ 2))) →
    ∃ t, runFor 4 s = .next t ∧
      t.outReg = convert r g b ∧ t.outCnt = 4 ∧ t.fill = 0 ∧ t.sink = s.sink ∧ t.stim = rest

/-! ## Runs: draining, timing, and the two levels -/

/-- With no RESET, the `m`-th edge at which the sink is ready has sent the next `m` bytes of C, M, Y, K in that order, whatever stalls
and offered inputs come between; after the fourth the CORE is back in the input phase. Nothing else changes meanwhile. -/
def Obligations.ReadySinkDrainsThePixelInOrder : Prop :=
  ∀ (s : State) (es : List EventWord) (F : EventWord) (rest : List EventWord),
    s.stim = es ++ F :: rest →
    (∀ E ∈ es, E[11] = false) → F[11] = false → F[8] = true →
    let m := es.countP (fun E => E[8]) + 1
    m ≤ s.outCnt.val →
    ∃ t, runFor (es.length + 1) s = .next t ∧
      t.sink = s.sink ++ (unsent s).take m ∧ t.outCnt.val = s.outCnt.val - m ∧
      (m = s.outCnt.val → inReady t = true) ∧
      t.buf = s.buf ∧ t.fill = s.fill ∧ t.outReg = s.outReg ∧ t.stim = rest

/-- R135: after a pixel completion the input channel is closed until four EMITs have happened, which takes at least four edges, and
no byte offered meanwhile is accepted. -/
def Obligations.InputIsClosedUntilFourEmits : Prop :=
  ∀ (k : Nat) (s t : State), s.outCnt = 4 → runFor k s = .next t →
    (∀ e ∈ history k s, e.2 ≠ .reset) →
    let emits := (history k s).countP fun e => decide (e.2 = .emit)
    (emits < 4 → inReady t = false ∧ t.buf = s.buf ∧ t.fill = s.fill ∧ acceptedOps (history k s) = []) ∧
    emits ≤ k ∧ (k < 4 → inReady t = false)

/-- With source and sink always ready a pixel takes seven edges: three inputs, then C, M, Y, K; `out_valid` is 1 in the cycle after the
third byte. -/
def Obligations.OnePixelPerSevenEdges : Prop :=
  ∀ (s : State) (r g b : Byte) (rest : List EventWord),
    s.outCnt = 0 → s.fill = 0 → s.stim = assembleAll [.pixel r g b, .drain] ++ rest →
    (∃ t, runFor 3 s = .next t ∧ outValid t = true ∧ outData t = (convert r g b)[0] ∧ t.sink = s.sink) ∧
    runFor 7 s = .next { s with
      buf := #v[r, g, b], outReg := convert r g b, sink := s.sink ++ (convert r g b).toList, stim := rest, edge := s.edge + 7 }

/-- The bytes that reach the sink in a run are those sent by its EMITs, in edge order. -/
def Obligations.SinkRecordsTheEmits : Prop :=
  ∀ (k : Nat) (s t : State), runFor k s = .next t → t.sink = s.sink ++ sentBytes (history k s)

/-- R131: at the transaction level `reset` clears the fill counter and the buffer and emits nothing. -/
def Obligations.TransactionResetEmitsNothing : Prop :=
  ∀ t : TState, t.apply .reset = { t with fill := 0, buf := #v[0, 0, 0] } ∧ (t.apply .reset).out = t.out

/-- One step of the cycle level is the operations that it maps to at the transaction level, unless it is a RESET that falls while
bytes are unsent. -/
def Obligations.StepRefinesTheTransactionLevel : Prop :=
  ∀ (s : State) (t : TState), Refines s t → (nextOp s = .reset → s.outCnt = 0) →
    ∃ s', step s = .next s' ∧ Refines s' (t.applyAll (transactionOps (nextOp s)))

/-- In a run from reset in which no RESET falls while bytes are unsent, the bytes sent are a beginning of the transaction-level output
of the accepted operations, and all of it when the run ends drained. -/
def Obligations.SentBytesAreTheTransactionOutput : Prop :=
  ∀ (k : Nat) (s t : State), s.RegistersReset → s.sink = [] → runFor k s = .next t →
    lossless (history k s) = true →
    t.sink <+: transactionOutput (acceptedOps (history k s)) ∧
    (t.outCnt = 0 → t.sink = transactionOutput (acceptedOps (history k s)))

/-- In any run from reset the bytes sent are the transaction-level output with, for each completed pixel, its last n bytes removed: n is
`out_cnt` at the RESET or at the end of the run that cut the pixel, and 0 for a pixel sent whole. -/
def Obligations.OnlyTheLastBytesOfACutPixelAreLost : Prop :=
  ∀ (k : Nat) (s t : State), s.RegistersReset → s.sink = [] → runFor k s = .next t →
    ∃ pixels : List (Vector Byte 4),
      pixels.length = (lostPerPixel (history k s) t).length ∧
      transactionOutput (acceptedOps (history k s)) = pixels.flatMap (fun p => p.toList) ∧
      t.sink = (pixels.zip (lostPerPixel (history k s) t)).flatMap (fun p => p.1.toList.take (4 - p.2))

/-- R38: how the input is spread over time does not change the output: two runs from equal registers that accept the same operations,
lose no byte to a RESET and end drained send the same bytes. -/
def Obligations.ChunkingDoesNotChangeTheOutput : Prop :=
  ∀ (k k' : Nat) (s s' t t' : State),
    s.buf = s'.buf → s.fill = s'.fill → s.outCnt = 0 → s'.outCnt = 0 →
    runFor k s = .next t → runFor k' s' = .next t' →
    acceptedOps (history k s) = acceptedOps (history k' s') →
    lossless (history k s) = true → lossless (history k' s') = true → t.outCnt = 0 → t'.outCnt = 0 →
    ∃ out, t.sink = s.sink ++ out ∧ t'.sink = s'.sink ++ out

/-- The output of a stream: a drained run from reset that accepts the stream's bytes and then its end, under any schedule of the host,
sends CONVERT of each successive triple in order, and nothing for a trailing partial pixel. -/
def Obligations.StreamIsConvertedTripleByTriple : Prop :=
  ∀ (k : Nat) (s t : State) (bytes : List Byte), s.RegistersReset → s.sink = [] →
    runFor k s = .next t → t.outCnt = 0 →
    acceptedOps (history k s) = bytes.map .feed ++ [.eos] →
    t.sink = convertStream bytes

/-- R89: from `fill = 0`, 3N fed bytes emit exactly N pixels; pixel p is CONVERT of bytes 3p, 3p+1 and 3p+2, in the order of p; after
3p + j bytes `fill = j`. -/
def Obligations.EveryThreeBytesEmitOnePixel : Prop :=
  (∀ (t : TState) (bytes : List Byte) (n : Nat), t.fill = 0 → bytes.length = 3 * n →
    let u := t.applyAll (bytes.map .feed)
    u.fill = 0 ∧ u.out = t.out ++ (List.range n).flatMap (fun p =>
      (convert (bytes.getD (3 * p) 0) (bytes.getD (3 * p + 1) 0) (bytes.getD (3 * p + 2) 0)).toList)) ∧
  (∀ (t : TState) (bytes : List Byte), t.fill = 0 →
    (t.applyAll (bytes.map .feed)).fill.val = bytes.length % 3)

/-- R86: a stream of 3N + r bytes ended by EOS, by FEED_EOS on its last byte or by RESET emits its N whole pixels and nothing for the last
r bytes; not ended, the r bytes stay and later bytes complete them. -/
def Obligations.TrailingPartialPixelIsDropped : Prop :=
  ∀ (t : TState) (bytes : List Byte), t.fill = 0 →
    (convertStream bytes).length = 4 * (bytes.length / 3) ∧
    (t.applyAll (bytes.map .feed ++ [.eos])).out = t.out ++ convertStream bytes ∧
    (t.applyAll (bytes.map .feed ++ [.eos])).fill = 0 ∧
    (∀ b, transactionOps (.feedEos b) = [.feed b, .eos]) ∧
    (t.applyAll (bytes.map .feed ++ [.reset])).out = t.out ++ convertStream bytes ∧
    (t.applyAll (bytes.map .feed ++ [.reset])).fill = 0 ∧
    (t.applyAll (bytes.map .feed)).out = t.out ++ convertStream bytes ∧
    (t.applyAll (bytes.map .feed)).fill.val = bytes.length % 3 ∧
    ∀ later : List Byte,
      (t.applyAll (bytes.map .feed ++ later.map .feed)).out = t.out ++ convertStream (bytes ++ later)
end

