-- ==== Sys2Proof/Laws/Converter.lean ====
section
/-! SUPPORT. The parts of CONVERT in plain arithmetic: the inverted channels and K against the three components, and the
two branches of a channel. -/

namespace Sys2Proof.Machine

theorem invert_eq (x : Byte) : invert x = 255 - x.toNat := rfl

theorem invert_le (x : Byte) : invert x ≤ 255 := by simp [invert_eq]

theorem keyOf_le_left (r g b : Byte) : keyOf r g b ≤ invert r := by simp [keyOf]

theorem keyOf_le_mid (r g b : Byte) : keyOf r g b ≤ invert g := by simp [keyOf]

theorem keyOf_le_right (r g b : Byte) : keyOf r g b ≤ invert b := by simp [keyOf]

/-- K is one of the three inverted channels. -/
theorem keyOf_cases (r g b : Byte) :
    keyOf r g b = invert r ∨ keyOf r g b = invert g ∨ keyOf r g b = invert b := by
  unfold keyOf; omega

theorem channel_degenerate (iX : Nat) : channel iX 255 = 0 := by simp [channel, Config.maxComponent]

theorem channel_division {k : Nat} (iX : Nat) (h : k ≠ 255) :
    channel iX k = 255 * (iX - k) / (255 - k) := by
  simp [channel, channelProduct, Config.maxComponent, h]

@[simp] theorem convertExact_c (r g b : Byte) : (convertExact r g b)[0] = channel (invert r) (keyOf r g b) := rfl
@[simp] theorem convertExact_m (r g b : Byte) : (convertExact r g b)[1] = channel (invert g) (keyOf r g b) := rfl
@[simp] theorem convertExact_y (r g b : Byte) : (convertExact r g b)[2] = channel (invert b) (keyOf r g b) := rfl
@[simp] theorem convertExact_k (r g b : Byte) : (convertExact r g b)[3] = keyOf r g b := rfl

theorem convert_get (r g b : Byte) (j : Fin 4) :
    (convert r g b)[j] = BitVec.ofNat 8 (convertExact r g b)[j] := by
  match j with
  | 0 => rfl
  | 1 => rfl
  | 2 => rfl
  | 3 => rfl

end Sys2Proof.Machine
end

