-- ==== Sys2Proof/Laws/Decode.lean ====
section
/-! SUPPORT. The decode, one lemma for each path of R43, and the reading of a number as an event word. -/

namespace Sys2Proof

@[simp] theorem decode_rst {E : EventWord} (p : Phase) (h : EventWord.rst E = true) : decode p E = .reset := by
  simp [decode, h]

theorem decode_input {E : EventWord} (h : EventWord.rst E = false) :
    decode .input E =
      match EventWord.inEos E, EventWord.inValid E with
      | false, true => .feed (EventWord.inData E)
      | true, true => .feedEos (EventWord.inData E)
      | true, false => .eos
      | false, false => .idle := by
  rw [decode, h]; rfl

theorem decode_output {E : EventWord} (h : EventWord.rst E = false) :
    decode .output E = if EventWord.outReady E then .emit else .stall := by
  simp [decode, h]

/-- Everything that can be decoded in the input phase (R43, R81). -/
theorem decode_input_cases (E : EventWord) :
    decode .input E = .reset ∨ decode .input E = .feed (EventWord.inData E) ∨
    decode .input E = .feedEos (EventWord.inData E) ∨ decode .input E = .eos ∨ decode .input E = .idle := by
  unfold decode
  cases EventWord.rst E <;> cases EventWord.inEos E <;> cases EventWord.inValid E <;> simp

/-- Everything that can be decoded in the output phase (R43, R88). -/
theorem decode_output_cases (E : EventWord) :
    decode .output E = .reset ∨ decode .output E = .emit ∨ decode .output E = .stall := by
  unfold decode
  cases EventWord.rst E <;> cases EventWord.outReady E <;> simp

theorem eventWordOfNat_ok {w : Nat} (h : w < 4096) : eventWordOfNat w = .ok (BitVec.ofNat 12 w) := by
  simp [eventWordOfNat, h]

theorem eventWordOfNat_error {w : Nat} (h : 4096 ≤ w) : eventWordOfNat w = .error .widerThanTwelveBits := by
  simp [eventWordOfNat, Nat.not_lt.mpr h]

end Sys2Proof
end

