-- ==== Sys2Proof/Laws/State.lean ====
section
/-! SUPPORT. What each shared update does to each field of the state, one lemma a field, and the registers of the reset
state. -/

namespace Sys2Proof.Machine

/-! `storeByte`, field by field. -/

@[simp] theorem storeByte_buf (b : Byte) (s : State) :
    (storeByte b s).buf = s.buf.set s.fill.val b s.fill.isLt := rfl
@[simp] theorem storeByte_fill (b : Byte) (s : State) :
    (storeByte b s).fill = s.fill + 1 := rfl
@[simp] theorem storeByte_outReg (b : Byte) (s : State) :
    (storeByte b s).outReg = s.outReg := rfl
@[simp] theorem storeByte_outCnt (b : Byte) (s : State) :
    (storeByte b s).outCnt = s.outCnt := rfl
@[simp] theorem storeByte_stim (b : Byte) (s : State) :
    (storeByte b s).stim = s.stim := rfl
@[simp] theorem storeByte_sink (b : Byte) (s : State) :
    (storeByte b s).sink = s.sink := rfl
@[simp] theorem storeByte_edge (b : Byte) (s : State) :
    (storeByte b s).edge = s.edge := rfl

/-! `complete`, field by field. -/

@[simp] theorem complete_buf (b : Byte) (s : State) :
    (complete b s).buf = s.buf.set 2 b := rfl
@[simp] theorem complete_fill (b : Byte) (s : State) :
    (complete b s).fill = 0 := rfl
@[simp] theorem complete_outReg (b : Byte) (s : State) :
    (complete b s).outReg = convert s.buf[0] s.buf[1] b := rfl
@[simp] theorem complete_outCnt (b : Byte) (s : State) :
    (complete b s).outCnt = 4 := rfl
@[simp] theorem complete_stim (b : Byte) (s : State) :
    (complete b s).stim = s.stim := rfl
@[simp] theorem complete_sink (b : Byte) (s : State) :
    (complete b s).sink = s.sink := rfl
@[simp] theorem complete_edge (b : Byte) (s : State) :
    (complete b s).edge = s.edge := rfl

/-! `endStream`, field by field. -/

@[simp] theorem endStream_buf (s : State) :
    (endStream s).buf = s.buf := rfl
@[simp] theorem endStream_fill (s : State) :
    (endStream s).fill = 0 := rfl
@[simp] theorem endStream_outReg (s : State) :
    (endStream s).outReg = s.outReg := rfl
@[simp] theorem endStream_outCnt (s : State) :
    (endStream s).outCnt = s.outCnt := rfl
@[simp] theorem endStream_stim (s : State) :
    (endStream s).stim = s.stim := rfl
@[simp] theorem endStream_sink (s : State) :
    (endStream s).sink = s.sink := rfl
@[simp] theorem endStream_edge (s : State) :
    (endStream s).edge = s.edge := rfl

/-! `sendByte`, field by field. -/

@[simp] theorem sendByte_buf (s : State) :
    (sendByte s).buf = s.buf := rfl
@[simp] theorem sendByte_fill (s : State) :
    (sendByte s).fill = s.fill := rfl
@[simp] theorem sendByte_outReg (s : State) :
    (sendByte s).outReg = s.outReg := rfl
@[simp] theorem sendByte_outCnt (s : State) :
    (sendByte s).outCnt = ⟨s.outCnt.val - 1, by omega⟩ := rfl
@[simp] theorem sendByte_stim (s : State) :
    (sendByte s).stim = s.stim := rfl
@[simp] theorem sendByte_sink (s : State) :
    (sendByte s).sink = s.sink ++ [outData s] := rfl
@[simp] theorem sendByte_edge (s : State) :
    (sendByte s).edge = s.edge := rfl

/-! `resetRegisters`, field by field. -/

@[simp] theorem resetRegisters_buf (s : State) :
    (resetRegisters s).buf = #v[0, 0, 0] := rfl
@[simp] theorem resetRegisters_fill (s : State) :
    (resetRegisters s).fill = 0 := rfl
@[simp] theorem resetRegisters_outReg (s : State) :
    (resetRegisters s).outReg = #v[0, 0, 0, 0] := rfl
@[simp] theorem resetRegisters_outCnt (s : State) :
    (resetRegisters s).outCnt = 0 := rfl
@[simp] theorem resetRegisters_stim (s : State) :
    (resetRegisters s).stim = s.stim := rfl
@[simp] theorem resetRegisters_sink (s : State) :
    (resetRegisters s).sink = s.sink := rfl
@[simp] theorem resetRegisters_edge (s : State) :
    (resetRegisters s).edge = s.edge := rfl

/-! `sampled`, field by field. -/

@[simp] theorem sampled_buf (s : State) :
    (sampled s).buf = s.buf := rfl
@[simp] theorem sampled_fill (s : State) :
    (sampled s).fill = s.fill := rfl
@[simp] theorem sampled_outReg (s : State) :
    (sampled s).outReg = s.outReg := rfl
@[simp] theorem sampled_outCnt (s : State) :
    (sampled s).outCnt = s.outCnt := rfl
@[simp] theorem sampled_stim (s : State) :
    (sampled s).stim = s.stim.tail := rfl
@[simp] theorem sampled_sink (s : State) :
    (sampled s).sink = s.sink := rfl
@[simp] theorem sampled_edge (s : State) :
    (sampled s).edge = s.edge + 1 := rfl

/-! The reset state (R20). -/

@[simp] theorem reset_buf : State.reset.buf = #v[0, 0, 0] := rfl
@[simp] theorem reset_fill : State.reset.fill = 0 := rfl
@[simp] theorem reset_outReg : State.reset.outReg = #v[0, 0, 0, 0] := rfl
@[simp] theorem reset_outCnt : State.reset.outCnt = 0 := rfl
@[simp] theorem reset_stim : State.reset.stim = [] := rfl
@[simp] theorem reset_sink : State.reset.sink = [] := rfl
@[simp] theorem reset_edge : State.reset.edge = 0 := rfl

end Sys2Proof.Machine
end

