-- ==== Sys2Proof/Laws/Ops.lean ====
section
/-! SUPPORT. One specification lemma for each shared operation, status output and arm of `exec`, which proofs cite
instead of unfolding it. -/

namespace Sys2Proof.Machine

/-! Status outputs. -/

@[simp] theorem inReady_iff (s : State) : inReady s = true ↔ s.outCnt = 0 := by simp [inReady]

@[simp] theorem outValid_iff (s : State) : outValid s = true ↔ s.outCnt ≠ 0 := by simp [outValid]

@[simp] theorem drained_iff (s : State) : drained s = true ↔ s.outCnt = 0 := by simp [drained]

theorem phase_of_empty {s : State} (h : s.outCnt = 0) : phase s = .input := by simp [phase, h]

theorem phase_of_pending {s : State} (h : s.outCnt ≠ 0) : phase s = .output := by simp [phase, h]

@[simp] theorem phase_sampled (s : State) : phase (sampled s) = phase s := rfl

/-- Sampling the next word changes no register, so it changes no output in the output phase. -/
theorem outData_sampled {s : State} (h : s.outCnt ≠ 0) : outData (sampled s) = outData s := by
  simp [outData, h]

theorem outData_of_pending {s : State} (h : s.outCnt.val ≠ 0) :
    outData s = s.outReg[4 - s.outCnt.val]'(by omega) := by
  have h' : s.outCnt ≠ 0 := fun e => h (by simp [e])
  simp [outData, h']

/-! The bytes not yet sent. -/

theorem unsent_of_empty {s : State} (h : s.outCnt = 0) : unsent s = [] := by
  simp [unsent, h]

@[simp] theorem unsent_complete (b : Byte) (s : State) :
    unsent (complete b s) = (convert s.buf[0] s.buf[1] b).toList := by
  simp [unsent]

@[simp] theorem unsent_sampled (s : State) : unsent (sampled s) = unsent s := rfl

/-- In the output phase the byte on `out_data` is the first of the unsent bytes; EMIT leaves the others. -/
theorem unsent_eq_cons {s : State} (h : s.outCnt ≠ 0) :
    unsent s = outData s :: unsent (sendByte s) := by
  have h' : s.outCnt.val ≠ 0 := fun e => h (Fin.ext e)
  have lt : 4 - s.outCnt.val < s.outReg.toList.length := by simp; omega
  have next : 4 - (s.outCnt.val - 1) = 4 - s.outCnt.val + 1 := by omega
  rw [unsent, List.drop_eq_getElem_cons lt, outData_of_pending h']
  simp [unsent, next]

theorem length_unsent (s : State) : (unsent s).length = s.outCnt.val := by
  simp [unsent]; omega

/-! The guarded operations. -/

theorem inInputPhase_of_empty {s : State} (f : State → State) (h : s.outCnt = 0) :
    inInputPhase f s = f s := by simp [inInputPhase, h]

theorem inInputPhase_of_pending {s : State} (f : State → State) (h : s.outCnt ≠ 0) :
    inInputPhase f s = s := by simp [inInputPhase, h]

theorem inOutputPhase_of_pending {s : State} (f : State → State) (h : s.outCnt ≠ 0) :
    inOutputPhase f s = f s := by simp [inOutputPhase, h]

theorem inOutputPhase_of_empty {s : State} (f : State → State) (h : s.outCnt = 0) :
    inOutputPhase f s = s := by simp [inOutputPhase, h]

theorem acceptByte_of_full {s : State} (b : Byte) (h : s.fill = 2) : acceptByte b s = complete b s := by
  simp [acceptByte, h]

theorem acceptByte_of_partial {s : State} (b : Byte) (h : s.fill ≠ 2) :
    acceptByte b s = storeByte b s := by
  simp [acceptByte, h]

/-- Everything the feed step can do: it completes the pixel, or it stores the byte in slot `fill` and counts it. -/
theorem acceptByte_cases (b : Byte) (s : State) :
    (s.fill = 2 ∧ acceptByte b s = complete b s) ∨
    (s.fill ≠ 2 ∧ acceptByte b s = storeByte b s) := by
  by_cases h : s.fill = 2
  · exact .inl ⟨h, acceptByte_of_full b h⟩
  · exact .inr ⟨h, acceptByte_of_partial b h⟩

/-! The arms of `exec`. -/

@[simp] theorem exec_reset (s : State) : exec .reset s = .next (resetRegisters s) := rfl

@[simp] theorem exec_feed (b : Byte) (s : State) :
    exec (.feed b) s = .next (inInputPhase (acceptByte b) s) := rfl

@[simp] theorem exec_feedEos (b : Byte) (s : State) :
    exec (.feedEos b) s = .next (inInputPhase (fun t => endStream (acceptByte b t)) s) := rfl

@[simp] theorem exec_eos (s : State) : exec .eos s = .next (inInputPhase endStream s) := rfl

@[simp] theorem exec_idle (s : State) : exec .idle s = .next s := rfl

@[simp] theorem exec_emit (s : State) : exec .emit s = .next (inOutputPhase sendByte s) := rfl

@[simp] theorem exec_stall (s : State) : exec .stall s = .next s := rfl

end Sys2Proof.Machine
end

