-- ==== Sys2Proof/Laws/PerInstr.lean ====
section
/-! SUPPORT. The family RowOfWord: every operation has a row of the opcode table under its mnemonic and phase condition,
and its canonical word fits that row's mask and match (R43, R46). -/

namespace Sys2Proof.Laws.RowOfWord

/-- The canonical word of the operation fits the table row of its mnemonic, whose phase condition is the operation's. -/
def Statement (i : Instr) : Prop :=
  ∃ r ∈ opcodeTable, r.mnemonic = i.mnemonic ∧ r.cond = i.phaseCondition ∧ encode i &&& r.mask = r.pattern

theorem reset : Statement .reset :=
  ⟨⟨"RESET", 0x800, 0x800, none⟩, by decide, rfl, rfl, by decide⟩

theorem feed (b : Byte) : Statement (.feed b) :=
  ⟨⟨"FEED", 0xE00, 0x200, some .input⟩, by decide, rfl, rfl, by revert b; decide⟩

theorem feedEos (b : Byte) : Statement (.feedEos b) :=
  ⟨⟨"FEED_EOS", 0xE00, 0x600, some .input⟩, by decide, rfl, rfl, by revert b; decide⟩

theorem eos : Statement .eos :=
  ⟨⟨"EOS", 0xE00, 0x400, some .input⟩, by decide, rfl, rfl, by decide⟩

theorem idle : Statement .idle :=
  ⟨⟨"IDLE", 0xE00, 0x000, some .input⟩, by decide, rfl, rfl, by decide⟩

theorem emit : Statement .emit :=
  ⟨⟨"EMIT", 0x900, 0x100, some .output⟩, by decide, rfl, rfl, by decide⟩

theorem stall : Statement .stall :=
  ⟨⟨"STALL", 0x900, 0x000, some .output⟩, by decide, rfl, rfl, by decide⟩

end Sys2Proof.Laws.RowOfWord
end

