-- ==== Sys2Proof/Laws/Step.lean ====
section
/-! SUPPORT. The step and runs of it: what one step unfolds to, how a run of k + 1 steps begins, and that
`State.withFetchWord` makes the next step run the word's operation. -/

namespace Sys2Proof.Machine

@[simp] theorem nextEvent_cons {s : State} {E : EventWord} {rest : List EventWord} (h : s.stim = E :: rest) :
    nextEvent s = E := by simp [nextEvent, h]

@[simp] theorem nextEvent_nil {s : State} (h : s.stim = []) : nextEvent s = Config.hostEvent s.edge := by
  simp [nextEvent, h]

/-- One step is the next operation at the sampled state. -/
theorem step_eq (s : State) : step s = exec (nextOp s) (sampled s) := rfl

/-- What the next operation can be when the output register is empty. -/
theorem nextOp_cases_of_empty {s : State} (h : s.outCnt = 0) :
    nextOp s = .reset ∨ nextOp s = .feed (EventWord.inData (nextEvent s)) ∨
    nextOp s = .feedEos (EventWord.inData (nextEvent s)) ∨ nextOp s = .eos ∨ nextOp s = .idle := by
  rw [nextOp, phase_of_empty h]; exact decode_input_cases _

/-- What the next operation can be while bytes remain to be sent. -/
theorem nextOp_cases_of_pending {s : State} (h : s.outCnt ≠ 0) :
    nextOp s = .reset ∨ nextOp s = .emit ∨ nextOp s = .stall := by
  rw [nextOp, phase_of_pending h]; exact decode_output_cases _

@[simp] theorem runFor_zero (s : State) : runFor 0 s = .next s := rfl

theorem runFor_succ {s t : State} (k : Nat) (h : step s = .next t) : runFor (k + 1) s = runFor k t := by
  simp [runFor, h]

theorem runFor_eq_core_run (k : Nat) (s : State) : runFor k s = Sys2Proof.core.run k s := by
  induction k generalizing s with
  | zero => rfl
  | succ k ih =>
    cases h : step s with
    | next t =>
      have h' : Sys2Proof.core.step s = .next t := h
      rw [runFor_succ k h, ih t]; simp [Host.Core.run, h']; rfl
    | fault r => cases r
    | refused r =>
      have h' : Sys2Proof.core.step s = .refused r := h
      rw [runFor, h]; simp [Host.Core.run, h']; rfl

@[simp] theorem history_zero (s : State) : history 0 s = [] := rfl

theorem history_succ {s t : State} (k : Nat) (h : step s = .next t) :
    history (k + 1) s = (s, nextOp s) :: history k t := by
  simp [history, h]

theorem phase_inPhase (p : Phase) (s : State) : phase (inPhase p s) = p := by
  cases p <;> by_cases h : s.outCnt = 0 <;> simp [inPhase, phase, h]

/-- After `withFetchWord` the next step runs exactly the operation that `decodeTableWord` reads from the word. -/
theorem step_withFetchWord {s : State} {nbits w : Nat} {i : Instr} (h : decodeTableWord nbits w = some i) :
    step (s.withFetchWord nbits w) = exec i (sampled (s.withFetchWord nbits w)) := by
  by_cases lt : w % 2 ^ nbits < 4096
  · simp only [decodeTableWord, eventWordOfNat_ok lt, Option.some.injEq] at h
    subst h
    simp only [step, atEdge, State.withFetchWord, eventWordOfNat_ok lt]
    by_cases r : EventWord.rst (BitVec.ofNat 12 (w % 2 ^ nbits)) = true
    · simp [nextEvent, r]
    · have := phase_inPhase (wordPhase (BitVec.ofNat 12 (w % 2 ^ nbits))) s
      simp only [phase] at this
      simp [nextEvent, r, phase, this]
  · simp [decodeTableWord, eventWordOfNat_error (Nat.not_lt.mp lt)] at h

end Sys2Proof.Machine
end

