-- ==== Sys2Proof/Laws/Transaction.lean ====
section
/-! SUPPORT. Sequences of transaction-level operations, the output of a stream, and the accepted operations of a run, piece by
piece. -/

namespace Sys2Proof.Machine

@[simp] theorem applyAll_nil (t : TState) : t.applyAll [] = t := rfl

@[simp] theorem applyAll_cons (t : TState) (op : TOp) (ops : List TOp) :
    t.applyAll (op :: ops) = (t.apply op).applyAll ops := rfl

theorem applyAll_append (t : TState) (ops later : List TOp) :
    t.applyAll (ops ++ later) = (t.applyAll ops).applyAll later := List.foldl_append

@[simp] theorem apply_eos (t : TState) : t.apply .eos = t.eos := rfl

@[simp] theorem apply_feed (t : TState) (b : Byte) : t.apply (.feed b) = t.feed b := rfl

@[simp] theorem eos_buf (t : TState) : t.eos.buf = t.buf := rfl
@[simp] theorem eos_fill (t : TState) : t.eos.fill = 0 := rfl
@[simp] theorem eos_out (t : TState) : t.eos.out = t.out := rfl

/-- The feed that completes a pixel, with no slot but the last written. -/
theorem feed_of_full {t : TState} (b : Byte) (h : t.fill = 2) :
    t.feed b = ⟨t.buf.set 2 b, 0, t.out ++ (convert t.buf[0] t.buf[1] b).toList⟩ := by
  rcases t with ⟨buf, fill, out⟩
  simp only at h
  subst h
  simp [TState.feed]

theorem feed_of_partial {t : TState} (b : Byte) (h : t.fill ≠ 2) :
    t.feed b = ⟨t.buf.set t.fill.val b t.fill.isLt, t.fill + 1, t.out⟩ := by
  simp [TState.feed, h]

@[simp] theorem convertStream_cons (r g b : Byte) (rest : List Byte) :
    convertStream (r :: g :: b :: rest) = (convert r g b).toList ++ convertStream rest := rfl

@[simp] theorem acceptedOps_nil : acceptedOps [] = [] := rfl

@[simp] theorem acceptedOps_cons (e : State × Instr) (h : List (State × Instr)) :
    acceptedOps (e :: h) = transactionOps e.2 ++ acceptedOps h := rfl

@[simp] theorem lossless_cons (s : State) (i : Instr) (h : List (State × Instr)) :
    lossless ((s, i) :: h) = true ↔ (i = .reset → s.outCnt = 0) ∧ lossless h = true := by
  by_cases r : i = .reset <;> by_cases c : s.outCnt = 0 <;> simp [lossless, outValid, r, c]

end Sys2Proof.Machine
end

