-- ==== Sys2Proof/Tests/Slice0.lean ====
section
/-! SUPPORT. Tests whose expected results come from spec/95_test_vectors.md or from the rule named beside them, the smoke test of
WellFormed, and a witness for the hypotheses of every statement that has some. -/

namespace Sys2Proof.Tests

open Sys2Proof.Machine

/-- A state with the given registers and schedule, nothing sent yet. -/
def mk (fill : Fin 3) (buf : Vector Byte 3) (outCnt : Fin 5) (outReg : Vector Byte 4) (stim : List EventWord) : State :=
  ⟨buf, fill, outReg, outCnt, stim, [], 0⟩

/-- The same after one more edge, with what the sink has received. -/
def after (fill : Fin 3) (buf : Vector Byte 3) (outCnt : Fin 5) (outReg : Vector Byte 4) (sink : List Byte) : State :=
  ⟨buf, fill, outReg, outCnt, [], sink, 1⟩

/-! ## WellFormed: for each phase condition of R43 an operation that the other phase refuses -/

theorem test_wellFormed_refuses_output_ops_in_input_phase :
    Instr.emit.wellFormedIn .input = false ∧ Instr.stall.wellFormedIn .input = false := by decide

theorem test_wellFormed_refuses_input_ops_in_output_phase :
    (Instr.feed 0xFF).wellFormedIn .output = false ∧ (Instr.feedEos 0).wellFormedIn .output = false ∧
    Instr.eos.wellFormedIn .output = false ∧ Instr.idle.wellFormedIn .output = false := by decide

theorem test_wellFormed_allows_reset_in_both_phases :
    Instr.reset.wellFormedIn .input = true ∧ Instr.reset.wellFormedIn .output = true := by decide

/-! ## Decode: words written out bit by bit, `r e v o dddddddd` (R42, R43) -/

theorem test_decode_RESET : decode .output 0b1011_11111111 = .reset := by decide
theorem test_decode_FEED : decode .input 0b0010_10101011 = .feed 0xAB := by decide
theorem test_decode_FEED_bit7_is_most_significant : decode .input 0b0011_10000000 = .feed 128 := by decide
theorem test_decode_FEED_EOS : decode .input 0b0110_00010010 = .feedEos 0x12 := by decide
theorem test_decode_EOS : decode .input 0b0100_11101110 = .eos := by decide
theorem test_decode_IDLE : decode .input 0b0001_00000000 = .idle := by decide
theorem test_decode_EMIT : decode .output 0b0011_10101010 = .emit := by decide
theorem test_decode_STALL : decode .output 0b0110_10101010 = .stall := by decide

/-- The canonical words of R46. -/
theorem test_encode_canonical_words :
    encode .reset = 0x800 ∧ encode (.feed 0xFF) = 0x2FF ∧ encode (.feedEos 0x02) = 0x602 ∧ encode .eos = 0x400 ∧
    encode .idle = 0x000 ∧ encode .emit = 0x100 ∧ encode .stall = 0x000 := by decide

/-- Table words standing alone; a thirteenth bit is no event word (R42, notes/assumptions/5.md). -/
theorem test_decodeTableWord :
    decodeTableWord 16 0x800 = some .reset ∧ decodeTableWord 16 0x200 = some (.feed 0) ∧
    decodeTableWord 16 0x600 = some (.feedEos 0) ∧ decodeTableWord 16 0x400 = some .eos ∧
    decodeTableWord 16 0x000 = some .idle ∧ decodeTableWord 16 0x100 = some .emit ∧
    decodeTableWord 16 0x1000 = none := by decide

/-- The word placed after reset runs as its operation: EMIT sends the byte its phase offers. -/
theorem test_withFetchWord_runs_EMIT :
    step (State.reset.withFetchWord 16 0x100) = exec .emit (sampled (State.reset.withFetchWord 16 0x100)) := rfl

/-! ## CONVERT: spec/95_test_vectors.md sections 1 and 2 -/

theorem test_convert_black : convert 0 0 0 = #v[0, 0, 0, 255] := by decide
theorem test_convert_red : convert 255 0 0 = #v[0, 255, 255, 0] := by decide
theorem test_convert_rounds_down : convert 100 150 200 = #v[127, 63, 0, 55] := by decide
theorem test_convert_K68 : convert 170 187 0 = #v[23, 0, 255, 68] := by decide

/-! ## Single steps: spec/95_test_vectors.md section 4 -/

theorem test_FEED_at_fill_1 :
    step (mk 1 #v[0xAB, 0x22, 0x33] 0 #v[1, 2, 3, 4] [0x2CD]) = .next (after 2 #v[0xAB, 0xCD, 0x33] 0 #v[1, 2, 3, 4] []) :=
  rfl

theorem test_FEED_at_fill_2_completes :
    step (mk 2 #v[0x64, 0x96, 0x33] 0 #v[1, 2, 3, 4] [0x2C8]) =
      .next (after 0 #v[0x64, 0x96, 0xC8] 4 #v[0x7F, 0x3F, 0x00, 0x37] []) := rfl

theorem test_FEED_EOS_at_fill_1_discards :
    step (mk 1 #v[0x12, 0, 0] 0 #v[0, 0, 0, 0] [0x634]) = .next (after 0 #v[0x12, 0x34, 0] 0 #v[0, 0, 0, 0] []) := rfl

theorem test_FEED_EOS_at_fill_2_completes :
    step (mk 2 #v[1, 2, 0] 0 #v[0, 0, 0, 0] [0x603]) = .next (after 0 #v[1, 2, 3] 4 #v[0xAA, 0x55, 0x00, 0xFC] []) := rfl

theorem test_EOS_at_fill_2 :
    step (mk 2 #v[0x12, 0x34, 0] 0 #v[0, 0, 0, 0] [0x400]) = .next (after 0 #v[0x12, 0x34, 0] 0 #v[0, 0, 0, 0] []) := rfl

theorem test_IDLE_with_out_ready :
    step (mk 1 #v[0x12, 0, 0] 0 #v[0, 0, 0, 0] [0x100]) = .next (after 1 #v[0x12, 0, 0] 0 #v[0, 0, 0, 0] []) := rfl

theorem test_EMIT_at_out_cnt_1 :
    step (mk 0 #v[0, 0, 0] 1 #v[0x00, 0xFF, 0xFF, 0x07] [0x100]) =
      .next (after 0 #v[0, 0, 0] 0 #v[0x00, 0xFF, 0xFF, 0x07] [0x07]) := rfl

theorem test_EMIT_with_in_valid :
    step (mk 0 #v[0, 0, 0] 3 #v[0x00, 0xFF, 0xFE, 0x00] [0x3AA]) =
      .next (after 0 #v[0, 0, 0] 2 #v[0x00, 0xFF, 0xFE, 0x00] [0xFF]) := rfl

theorem test_STALL_with_in_valid_and_in_eos :
    step (mk 0 #v[0, 0, 0] 2 #v[0x00, 0xFF, 0xEE, 0x00] [0x6AA]) =
      .next (after 0 #v[0, 0, 0] 2 #v[0x00, 0xFF, 0xEE, 0x00] []) := rfl

theorem test_RESET_in_the_output_phase :
    step (mk 0 #v[1, 2, 3] 2 #v[0, 0, 0, 0xFF] [0x800]) = .next (after 0 #v[0, 0, 0] 0 #v[0, 0, 0, 0] []) := rfl

theorem test_RESET_wins_over_the_strobes :
    step (mk 2 #v[1, 2, 3] 0 #v[0, 0, 0, 0] [0xBFF]) = .next (after 0 #v[0, 0, 0] 0 #v[0, 0, 0, 0] []) := rfl

/-! ## Transaction level: spec/95_test_vectors.md section 3 -/

theorem test_transaction_A7_eos_in_mid_pixel :
    transactionOutput [.feed 1, .feed 2, .eos, .feed 1, .feed 2, .feed 3] = [0xAA, 0x55, 0x00, 0xFC] := by decide

theorem test_transaction_A9_reset_in_mid_pixel :
    transactionOutput [.feed 0x10, .feed 0x20, .reset, .feed 0xFF, .feed 0xFF, .feed 0xFF] = [0, 0, 0, 0] := by decide

/-! ## The stimulus syntax (R46) -/

theorem test_parse_FEED_hex : parseLine "FEED 0xFF".toList = .ok ⟨none, .op (.feed 0xFF), none⟩ := by rfl

theorem test_parse_label_and_comment :
    parseLine "start: FEED_EOS 2 ; last".toList = .ok ⟨some "start".toList, .op (.feedEos 2), some " last".toList⟩ := by rfl

theorem test_parse_PIXEL : parseLine "PIXEL 1, 2, 0x03".toList = .ok ⟨none, .pixel 1 2 3, none⟩ := by rfl

theorem test_parse_REP : parseLine "REP 3, IDLE".toList = .ok ⟨none, .rep 3 .idle, none⟩ := by rfl

theorem test_parse_word : parseLine ".word 0x9FF".toList = .ok ⟨none, .word 0x9FF, none⟩ := by rfl

/-- A tab separates as a space does (notes/assumptions/11.md). -/
theorem test_parse_tab_separates :
    parseLine "FEED\t 0xFF".toList = .ok ⟨none, .op (.feed 0xFF), none⟩ ∧
    parseLine "\tPIXEL\t1 ,\t2,3 ".toList = .ok ⟨none, .pixel 1 2 3, none⟩ ∧
    parseLine "REP\t2\t,\tEMIT".toList = .ok ⟨none, .rep 2 .emit, none⟩ ∧
    parseLine "a\tb: EOS".toList = .error .badLabel := ⟨by rfl, by rfl, by rfl, by rfl⟩

theorem test_parse_refuses_a_byte_over_255 : parseLine "FEED 256".toList = .error .badOperands := by rfl

theorem test_parse_refuses_an_unknown_name : parseLine "MOVE 1".toList = .error .unknownName := by rfl

/-! ## Witnesses: for each statement with hypotheses, data that meet them, at the ends of their ranges -/

/-- A state of the input phase with two bytes stored. -/
def inputState (stim : List EventWord) : State := mk 2 #v[100, 150, 7] 0 #v[1, 0, 3, 4] stim

/-- A state of the output phase that offers K. -/
def outputState (stim : List EventWord) : State := mk 0 #v[100, 150, 200] 1 #v[127, 63, 0, 55] stim

/-- A state right after a completion. -/
def fullState (stim : List EventWord) : State := mk 0 #v[100, 150, 200] 4 #v[127, 63, 0, 55] stim

theorem witness_KeyIs255ExactlyForBlack : ¬ ((0 : Byte) = 0 ∧ (0 : Byte) = 0 ∧ (1 : Byte) = 0) := by decide

theorem witness_DatapathRanges :
    keyOf 0 0 1 ≠ 255 ∧ (0 : Byte) ∈ [(0 : Byte), 0, 1] ∧ (1 : Byte) ∈ [(0 : Byte), 0, 1] := by decide

theorem witness_ChannelsAreFloorsOfTheFullProduct : keyOf 0 0 1 ≠ 255 ∧ keyOf 255 255 255 ≠ 255 := by decide

theorem witness_ConvertHasClosedForm :
    max (max (0 : Byte).toNat (0 : Byte).toNat) (0 : Byte).toNat = 0 ∧
    max (max (0 : Byte).toNat (0 : Byte).toNat) (1 : Byte).toNat ≠ 0 := by decide

theorem witness_OneChannelIsZero :
    invert 255 = keyOf 255 0 0 ∧ invert 255 = keyOf 0 255 0 ∧ invert 255 = keyOf 0 0 255 ∧ keyOf 0 0 0 = 255 := by decide

theorem witness_EventWordHoldsTheFiveSignals :
    4096 ≤ 4096 ∧ 4095 < 4096 ∧ (inputState [0xFFF, 0x000]).stim = 0xFFF :: [0x000] := by decide

theorem witness_DecodeInvertsEncode :
    (Instr.feed 255).wellFormedIn .input = true ∧ (Instr.feedEos 0).wellFormedIn .input = true ∧
    Instr.eos.wellFormedIn .input = true ∧ Instr.idle.wellFormedIn .input = true ∧ Instr.emit.wellFormedIn .output = true ∧
    Instr.stall.wellFormedIn .output = true ∧ Instr.reset.wellFormedIn .output = true := by decide

/-- The clauses of the decode: `rst`, the four pairs of strobes in the input phase, and the two values of `out_ready` in the output
phase. Also the hypotheses on words of the statements of the seven operations. -/
theorem witness_DecodeSelectsExactlyOneRow :
    (0x800#12)[11] = true ∧
    ((inputState []).outCnt = 0 ∧ (0x2FF#12)[11] = false ∧ (0x2FF#12)[10] = false ∧ (0x2FF#12)[9] = true) ∧
    ((0x6FF#12)[11] = false ∧ (0x6FF#12)[10] = true ∧ (0x6FF#12)[9] = true) ∧
    ((0x4FF#12)[11] = false ∧ (0x4FF#12)[10] = true ∧ (0x4FF#12)[9] = false) ∧
    ((0x1FF#12)[11] = false ∧ (0x1FF#12)[10] = false ∧ (0x1FF#12)[9] = false) ∧
    ((outputState []).outCnt ≠ 0 ∧ (fullState []).outCnt ≠ 0 ∧ (0x7FF#12)[11] = false ∧ (0x7FF#12)[8] = true) ∧
    ((0x6FF#12)[11] = false ∧ (0x6FF#12)[8] = false) := by decide

theorem witness_EveryWordIsLegalAndIgnoredFieldsDoNothing :
    ((0x800#12)[11] = true ∧ (0xFFF#12)[11] = true) ∧
    ((inputState []).outCnt = 0 ∧ (0x2AB#12)[11] = (0x3AB#12)[11] ∧ (0x2AB#12)[10] = (0x3AB#12)[10] ∧
      (0x2AB#12)[9] = (0x3AB#12)[9] ∧ (0x2AB#12).extractLsb' 0 8 = (0x3AB#12).extractLsb' 0 8) ∧
    ((outputState []).outCnt ≠ 0 ∧ (0x100#12)[11] = (0x7FF#12)[11] ∧ (0x100#12)[8] = (0x7FF#12)[8]) := by decide

theorem witness_AssembledLinesPerformTheirOps :
    (Instr.feed 255).wellFormedIn (phase (inputState (assemble (.op (.feed 255)) ++ [0x100]))) = true ∧
    (inputState (assemble (.op (.feed 255)) ++ [0x100])).stim = assemble (.op (.feed 255)) ++ [0x100] := by decide

theorem witness_ReadyAndValidAreComplements : (fullState []).outCnt ≠ 0 ∧ (inputState []).outCnt = 0 := by decide

theorem witness_InputTransferSelectsByStrobes :
    inputTransfer (inputState []) 0x2FF = true ∧ inputTransfer (inputState []) 0x6FF = true ∧
    inputTransfer (inputState []) 0x4FF = true ∧ inputTransfer (inputState []) 0x1FF = false ∧
    inputTransfer (fullState []) 0x6FF = false := by decide

theorem witness_OutDataPresentsThePixelInOrder :
    (fullState [0x000]).outCnt = 4 ∧ (mk 0 #v[0, 0, 0] 3 #v[1, 2, 3, 4] []).outCnt = 3 ∧
    (mk 0 #v[0, 0, 0] 2 #v[1, 2, 3, 4] []).outCnt = 2 ∧ (outputState []).outCnt = 1 ∧ (inputState []).outCnt = 0 ∧
    nextOp (fullState [0x000]) ≠ .emit ∧ nextOp (fullState [0x000]) ≠ .reset := by decide

/-- A step that sends a byte and one that takes a byte, for the statements whose hypothesis is a step. -/
theorem witness_SinkTakesTheOfferedByteAtATransfer :
    (∃ t, step (outputState [0x100]) = .next t) ∧ (∃ t, step (inputState [0x2FF]) = .next t) := ⟨⟨_, rfl⟩, ⟨_, rfl⟩⟩

theorem witness_StepRunsTheDecodedOperation :
    (inputState [0x2C8, 0x100]).stim = 0x2C8 :: [0x100] ∧ decode (phase (inputState [0x2C8, 0x100])) 0x2C8 = .feed 0xC8 ∧
    (Instr.feed 0xC8).wellFormedIn (phase (inputState [0x2C8, 0x100])) = true ∧ (inputState []).stim = [] := by decide

theorem witness_ResetClearsEveryRegister : (0x9FF#12)[11] = true := by decide

theorem witness_FeedStoresOrCompletes :
    ((mk 0 #v[7, 7, 7] 0 #v[0, 0, 0, 0] []).fill = 0 ∧ (mk 0 #v[7, 7, 7] 0 #v[0, 0, 0, 0] []).outCnt = 0) ∧
    ((mk 1 #v[7, 7, 7] 0 #v[0, 0, 0, 0] []).fill = 1 ∧ (mk 1 #v[7, 7, 7] 0 #v[0, 0, 0, 0] []).outCnt = 0) ∧
    ((inputState []).fill = 2 ∧ (inputState []).outCnt = 0) ∧
    ((inputState []).outCnt = 0 ∧ (0x2C8#12)[11] = false ∧ (0x2C8#12)[10] = false ∧ (0x2C8#12)[9] = true) ∧
    (TState.start.fill = 0 ∧ (TState.start.feed 1).fill = 1 ∧ ((TState.start.feed 1).feed 2).fill = 2) := by decide

theorem witness_CompletionLoadsThePixel :
    (inputState []).outCnt = 0 ∧ (inputState []).fill = 2 ∧ (⟨#v[100, 150, 7], 2, [9]⟩ : TState).buf = (inputState []).buf ∧
    (⟨#v[100, 150, 7], 2, [9]⟩ : TState).fill = 2 := by decide

theorem witness_FeedEosFeedsThenEndsTheStream :
    ((inputState []).outCnt = 0 ∧ (0x6C8#12)[11] = false ∧ (0x6C8#12)[10] = true ∧ (0x6C8#12)[9] = true) ∧
    (mk 0 #v[7, 7, 7] 0 #v[0, 0, 0, 0] []).fill = 0 ∧ (mk 1 #v[7, 7, 7] 0 #v[0, 0, 0, 0] []).fill = 1 ∧
    (inputState []).fill = 2 := by decide

theorem witness_EosDiscardsThePartialPixel :
    ((inputState []).outCnt = 0 ∧ (0x400#12)[11] = false ∧ (0x400#12)[10] = true ∧ (0x400#12)[9] = false) ∧
    ((mk 0 #v[7, 7, 7] 0 #v[0, 0, 0, 0] []).outCnt = 0 ∧ (mk 0 #v[7, 7, 7] 0 #v[0, 0, 0, 0] []).fill = 0) ∧
    (outputState []).outCnt ≠ 0 := by decide

theorem witness_IdleChangesNothing :
    (inputState []).outCnt = 0 ∧ (0x1AA#12)[11] = false ∧ (0x1AA#12)[10] = false ∧ (0x1AA#12)[9] = false := by decide

theorem witness_EmitSendsTheNextByte :
    ((outputState []).outCnt ≠ 0 ∧ (0x7AA#12)[11] = false ∧ (0x7AA#12)[8] = true) ∧ (fullState []).outCnt = 4 ∧
    (mk 0 #v[0, 0, 0] 3 #v[1, 2, 3, 4] []).outCnt = 3 ∧ (mk 0 #v[0, 0, 0] 2 #v[1, 2, 3, 4] []).outCnt = 2 ∧
    (outputState []).outCnt = 1 := by decide

theorem witness_StallHoldsTheOfferedByte :
    (outputState [0x000, 0x6AA, 0x100]).outCnt ≠ 0 ∧
    (outputState [0x000, 0x6AA, 0x100]).stim = [0x000, 0x6AA] ++ [0x100] ∧
    ∀ E ∈ [0x000#12, 0x6AA#12], E[11] = false ∧ E[8] = false := by decide

theorem witness_InputIsIgnoredInTheOutputPhase : (outputState []).outCnt ≠ 0 ∧ (0x6AA#12)[11] = false := by decide

theorem witness_ReadyIsIgnoredInTheInputPhase : (inputState []).outCnt = 0 := by decide

theorem witness_ExecIsTheEdgeOfTheCanonicalWord :
    Instr.emit.wellFormedIn (phase (inputState [])) = false ∧ (Instr.feed 1).wellFormedIn (phase (fullState [])) = false := by
  decide

theorem witness_SimultaneousEventsAreSettled : (0xFFF#12)[11] = true ∧ (inputState []).outCnt = 0 := by decide

/-- A step of each operation that writes a register. -/
theorem witness_OnlyTheNamedOperationsWriteEachRegister :
    (∃ t, exec (.feed 200) (inputState []) = .next t ∧ t.outReg ≠ (inputState []).outReg ∧ t.buf ≠ (inputState []).buf ∧
      t.outCnt ≠ (inputState []).outCnt ∧ t.fill ≠ (inputState []).fill) ∧
    (∃ t, exec .emit (outputState []) = .next t ∧ t.sink ≠ (outputState []).sink ∧ t.outCnt ≠ (outputState []).outCnt) ∧
    (∃ t, exec .reset (fullState []) = .next t ∧ t.outReg ≠ (fullState []).outReg) :=
  ⟨⟨_, rfl, by decide⟩, ⟨_, rfl, by decide⟩, ⟨_, rfl, by decide⟩⟩

theorem witness_StateHoldsWhileNothingTransfers :
    ((inputState [0x000, 0x1FF, 0x2C8]).stim = [0x000, 0x1FF] ++ [0x2C8] ∧ (inputState [0x000, 0x1FF, 0x2C8]).outCnt = 0 ∧
      ∀ E ∈ [0x000#12, 0x1FF#12], E[11] = false ∧ E[10] = false ∧ E[9] = false) ∧
    ((fullState [0x6FF, 0x100]).stim = [0x6FF] ++ [0x100] ∧ (fullState [0x6FF, 0x100]).outCnt ≠ 0 ∧
      ∀ E ∈ [0x6FF#12], E[11] = false ∧ E[8] = false) := by decide

/-- A step from a state of the output phase to another one, and a run from reset that ends in the output phase. -/
theorem witness_FillIsZeroWhileBytesAreUnsent :
    ((fullState [0x100]).Inv ∧ ∃ t, step (fullState [0x100]) = .next t ∧ t.outCnt ≠ 0) ∧
    (State.RegistersReset (mk 0 #v[0, 0, 0] 0 #v[0, 0, 0, 0] [0x200, 0x200, 0x200]) ∧
      ∃ t, runFor 3 (mk 0 #v[0, 0, 0] 0 #v[0, 0, 0, 0] [0x200, 0x200, 0x200]) = .next t ∧ t.outCnt ≠ 0) :=
  ⟨⟨by decide, _, rfl, by decide⟩, by decide, _, rfl, by decide⟩

theorem witness_OutputRegisterHoldsItsPixel :
    (fullState [0x100]).HoldsItsPixel ∧ ∃ t, step (fullState [0x100]) = .next t ∧ t.outCnt ≠ 0 := ⟨by decide, _, rfl, by decide⟩

theorem witness_SomeOutputSlotStaysZero :
    (inputState [0x2C8]).SomeSlotZero ∧ ∃ t, step (inputState [0x2C8]) = .next t := ⟨by decide, _, rfl⟩

theorem witness_EveryAllowedCounterPairIsReached : ((4 : Fin 5) ≠ 0 → (0 : Fin 3) = 0) ∧ ((0 : Fin 5) ≠ 0 → (2 : Fin 3) = 0) := by
  decide

theorem witness_StaleRegistersAreUnobservable :
    SameButStale (mk 1 #v[7, 8, 9] 0 #v[1, 2, 3, 4] [0x2FF]) (mk 1 #v[7, 0, 0] 0 #v[0, 0, 0, 0] [0x2FF]) := by decide

theorem witness_StreamStartFramesTheNextPixel :
    ((fullState (0x800 :: assemble (.pixel 1 2 3) ++ [])).stim = 0x800 :: assemble (.pixel 1 2 3) ++ [] ∧
      (0x800#12)[11] = true) ∧
    ((inputState (0x400 :: assemble (.pixel 1 2 3) ++ [])).outCnt = 0 ∧ (0x400#12)[10] = true ∧ (0x400#12)[9] = false) ∧
    ((mk 1 #v[7, 8, 9] 0 #v[0, 0, 0, 0] (0x6FF :: assemble (.pixel 1 2 3) ++ [])).outCnt = 0 ∧ (0x6FF#12)[10] = true ∧
      (mk 1 #v[7, 8, 9] 0 #v[0, 0, 0, 0] (0x6FF :: assemble (.pixel 1 2 3) ++ [])).fill ≠ 2) := by decide

/-- Four ready edges with stalls between them, the last of them draining the pixel. -/
theorem witness_ReadySinkDrainsThePixelInOrder :
    (fullState ([0x100, 0x000, 0x3AA, 0x6AA, 0x100] ++ 0x100 :: [0x2FF])).stim =
      [0x100, 0x000, 0x3AA, 0x6AA, 0x100] ++ 0x100 :: [0x2FF] ∧
    (∀ E ∈ [0x100#12, 0x000#12, 0x3AA#12, 0x6AA#12, 0x100#12], E[11] = false) ∧ (0x100#12)[11] = false ∧ (0x100#12)[8] = true ∧
    [0x100#12, 0x000#12, 0x3AA#12, 0x6AA#12, 0x100#12].countP (fun E => E[8]) + 1 ≤ (fullState []).outCnt.val := by decide

theorem witness_InputIsClosedUntilFourEmits :
    (fullState [0x100, 0x2FF, 0x100]).outCnt = 4 ∧ (∃ t, runFor 3 (fullState [0x100, 0x2FF, 0x100]) = .next t) ∧
    (∀ e ∈ history 3 (fullState [0x100, 0x2FF, 0x100]), e.2 ≠ .reset) ∧
    (history 3 (fullState [0x100, 0x2FF, 0x100])).countP (fun e => decide (e.2 = .emit)) < 4 :=
  ⟨by decide, ⟨_, rfl⟩, by decide, by decide⟩

theorem witness_OnePixelPerSevenEdges :
    (mk 0 #v[7, 8, 9] 0 #v[0, 0, 0, 0] (assembleAll [.pixel 1 2 3, .drain] ++ [0x800])).outCnt = 0 ∧
    (mk 0 #v[7, 8, 9] 0 #v[0, 0, 0, 0] (assembleAll [.pixel 1 2 3, .drain] ++ [0x800])).fill = 0 ∧
    (mk 0 #v[7, 8, 9] 0 #v[0, 0, 0, 0] (assembleAll [.pixel 1 2 3, .drain] ++ [0x800])).stim =
      assembleAll [.pixel 1 2 3, .drain] ++ [0x800] := by decide

theorem witness_SinkRecordsTheEmits : ∃ t, runFor 2 (fullState [0x100, 0x100]) = .next t := ⟨_, rfl⟩

theorem witness_StepRefinesTheTransactionLevel :
    Refines (fullState [0x100]) ⟨#v[100, 150, 200], 0, [127, 63, 0, 55]⟩ ∧
    (nextOp (fullState [0x100]) = .reset → (fullState [0x100]).outCnt = 0) := by decide

/-- Reset registers and the schedule of one red pixel, its first three bytes sent or all four. -/
def redPixel : State := mk 0 #v[0, 0, 0] 0 #v[0, 0, 0, 0] [0x2FF, 0x200, 0x600, 0x100, 0x100, 0x100, 0x100]

/-- Drained, without loss, and its accepted operations are three feeds and the end of the stream; so it meets the hypotheses of
SentBytesAreTheTransactionOutput, OnlyTheLastBytesOfACutPixelAreLost and StreamIsConvertedTripleByTriple together. -/
theorem witness_SentBytesAreTheTransactionOutput :
    redPixel.RegistersReset ∧ redPixel.sink = [] ∧ (∃ t, runFor 7 redPixel = .next t ∧ t.outCnt = 0) ∧
    lossless (history 7 redPixel) = true :=
  ⟨by decide, by decide, ⟨_, rfl, by decide⟩, by decide⟩

/-- A pixel that a RESET cuts after two bytes, and one that the end of the run cuts after one (program P4 of the spec). -/
theorem witness_OnlyTheLastBytesOfACutPixelAreLost :
    ∃ t, runFor 10 (mk 0 #v[0, 0, 0] 0 #v[0, 0, 0, 0]
        [0x200, 0x200, 0x200, 0x100, 0x100, 0x9FF, 0x2FF, 0x2FF, 0x2FF, 0x100]) = .next t ∧
      lostPerPixel (history 10 (mk 0 #v[0, 0, 0] 0 #v[0, 0, 0, 0]
        [0x200, 0x200, 0x200, 0x100, 0x100, 0x9FF, 0x2FF, 0x2FF, 0x2FF, 0x100])) t = [2, 3] :=
  ⟨_, rfl, by decide⟩

/-- Two runs that accept one red pixel, the second with an idle edge and a stall. -/
theorem witness_ChunkingDoesNotChangeTheOutput :
    acceptedOps (history 7 redPixel) = acceptedOps (history 9 (mk 0 #v[0, 0, 0] 0 #v[0, 0, 0, 0]
        [0x2FF, 0x000, 0x200, 0x600, 0x2AA, 0x100, 0x100, 0x100, 0x100])) ∧
    lossless (history 9 (mk 0 #v[0, 0, 0] 0 #v[0, 0, 0, 0]
        [0x2FF, 0x000, 0x200, 0x600, 0x2AA, 0x100, 0x100, 0x100, 0x100])) = true ∧
    ∃ t, runFor 9 (mk 0 #v[0, 0, 0] 0 #v[0, 0, 0, 0]
        [0x2FF, 0x000, 0x200, 0x600, 0x2AA, 0x100, 0x100, 0x100, 0x100]) = .next t ∧ t.outCnt = 0 :=
  ⟨by decide, by decide, _, rfl, by decide⟩

theorem witness_StreamIsConvertedTripleByTriple :
    acceptedOps (history 7 redPixel) = [255, 0, 0].map .feed ++ [.eos] := by decide

theorem witness_EveryThreeBytesEmitOnePixel : TState.start.fill = 0 ∧ [(255 : Byte), 0, 0].length = 3 * 1 := by decide

theorem witness_TrailingPartialPixelIsDropped : TState.start.fill = 0 := by decide

end Sys2Proof.Tests
end

section
/-! What one edge can do, said once, and the induction over runs that every invariant uses. -/

namespace Sys2Proof.Machine

/-- Everything that one edge can do to a state `s` (R43, R114): the operation selected, the phase that it needs, and the
state after it. -/
inductive EdgeEffect (s t : State) : Prop where
  | reset (op : nextOp s = .reset) (after : t = resetRegisters (sampled s))
  | feed (empty : s.outCnt = 0) (b : Byte) (op : nextOp s = .feed b) (after : t = acceptByte b (sampled s))
  | feedEos (empty : s.outCnt = 0) (b : Byte) (op : nextOp s = .feedEos b)
      (after : t = endStream (acceptByte b (sampled s)))
  | eos (empty : s.outCnt = 0) (op : nextOp s = .eos) (after : t = endStream (sampled s))
  | idle (empty : s.outCnt = 0) (op : nextOp s = .idle) (after : t = sampled s)
  | emit (pending : s.outCnt ≠ 0) (op : nextOp s = .emit) (after : t = sendByte (sampled s))
  | stall (pending : s.outCnt ≠ 0) (op : nextOp s = .stall) (after : t = sampled s)

/-- Some state follows every edge, and it is one that `EdgeEffect` names. -/
theorem step_effect (s : State) : ∃ t, step s = .next t ∧ EdgeEffect s t := by
  by_cases h : s.outCnt = 0
  · have guard_open (f : State → State) : inInputPhase f (sampled s) = f (sampled s) := inInputPhase_of_empty f h
    obtain op | op | op | op | op := nextOp_cases_of_empty h <;>
      simp only [step_eq, op, exec_reset, exec_feed, exec_feedEos, exec_eos, exec_idle, guard_open]
    · exact ⟨_, rfl, .reset op rfl⟩
    · exact ⟨_, rfl, .feed h _ op rfl⟩
    · exact ⟨_, rfl, .feedEos h _ op rfl⟩
    · exact ⟨_, rfl, .eos h op rfl⟩
    · exact ⟨_, rfl, .idle h op rfl⟩
  · have guard_open : inOutputPhase sendByte (sampled s) = sendByte (sampled s) := inOutputPhase_of_pending _ h
    obtain op | op | op := nextOp_cases_of_pending h <;>
      simp only [step_eq, op, exec_reset, exec_emit, exec_stall, guard_open]
    · exact ⟨_, rfl, .reset op rfl⟩
    · exact ⟨_, rfl, .emit h op rfl⟩
    · exact ⟨_, rfl, .stall h op rfl⟩

/-- The inversion of a step: the state that it answers is an effect of the edge. -/
theorem edgeEffect_of_step {s t : State} (h : step s = .next t) : EdgeEffect s t := by
  obtain ⟨u, hu, effect⟩ := step_effect s
  rw [hu] at h
  cases h
  exact effect

/-- What every step keeps, every run keeps. -/
theorem runFor_keeps {P : State → Prop} (keep : ∀ s t : State, P s → step s = .next t → P t) {k : Nat} {s t : State}
    (hs : P s) (run : runFor k s = .next t) : P t := by
  induction k generalizing s with
  | zero => cases run; exact hs
  | succ k ih =>
    obtain ⟨u, hu, -⟩ := step_effect s
    rw [runFor_succ k hu] at run
    exact ih (keep s u hs hu) run

end Sys2Proof.Machine
end

section
/-! R18: `fill` is 0 while bytes are unsent. -/

namespace Sys2Proof.Machine

/-- A feed in the input phase either loads four bytes and clears `fill`, or leaves nothing to send. -/
theorem acceptByte_inv {s : State} (b : Byte) (empty : s.outCnt = 0) : (acceptByte b s).Inv := by
  obtain ⟨-, eq⟩ | ⟨-, eq⟩ := acceptByte_cases b s <;> rw [eq] <;> intro pending
  · exact complete_fill b s
  · exact absurd empty pending

theorem step_keeps_inv {s t : State} (inv : s.Inv) (h : step s = .next t) : t.Inv := by
  cases edgeEffect_of_step h with
  | reset _ after => subst after; exact fun _ => resetRegisters_fill _
  | feed empty b _ after => subst after; exact acceptByte_inv b empty
  | feedEos _ _ _ after => subst after; exact fun _ => endStream_fill _
  | eos _ _ after => subst after; exact fun _ => endStream_fill _
  | idle _ _ after => subst after; exact inv
  | emit pending _ after => subst after; exact fun _ => inv pending
  | stall _ _ after => subst after; exact inv

theorem inv_of_registersReset {s : State} (h : s.RegistersReset) : s.Inv := by
  obtain ⟨-, fill, -, -⟩ := h
  exact fun _ => fill

/-- Settles O35: each effect of an edge keeps the invariant of R18, the registers at reset meet it, and so every run does. -/
theorem fillIsZeroWhileBytesAreUnsent : Obligations.FillIsZeroWhileBytesAreUnsent :=
  ⟨fun _ _ => step_keeps_inv, fun _ _ _ reset => runFor_keeps (fun _ _ => step_keeps_inv) (inv_of_registersReset reset)⟩

end Sys2Proof.Machine
end

section
/-! The simulation of R107: every edge that loses no byte is the operations that it maps to at the transaction level, and so
is every run. -/

namespace Sys2Proof.Machine

@[simp] theorem apply_reset (t : TState) : t.apply .reset = t.reset := rfl

/-- The feed step, which completes a pixel at both levels or at neither. -/
theorem refines_acceptByte {s : State} {t : TState} (b : Byte) (rel : Refines s t) (empty : s.outCnt = 0) :
    Refines (acceptByte b s) (t.feed b) := by
  rcases t with ⟨buf, fill, out⟩
  obtain ⟨rfl, rfl, rfl⟩ := rel
  obtain ⟨full, eq⟩ | ⟨room, eq⟩ := acceptByte_cases b s <;> rw [eq]
  · rw [feed_of_full b full]
    exact ⟨rfl, rfl, by simp [unsent_of_empty empty]⟩
  · rw [feed_of_partial b room]
    exact ⟨rfl, rfl, rfl⟩

theorem refines_endStream {s : State} {t : TState} (rel : Refines s t) : Refines (endStream s) t.eos := by
  obtain ⟨buf, -, out⟩ := rel
  exact ⟨buf, rfl, out⟩

/-- A RESET in the input phase, where there is no byte to lose. -/
theorem refines_resetRegisters {s : State} {t : TState} (rel : Refines s t) (empty : s.outCnt = 0) :
    Refines (resetRegisters s) t.reset := by
  obtain ⟨-, -, out⟩ := rel
  rw [unsent_of_empty empty] at out
  exact ⟨rfl, rfl, out⟩

/-- EMIT moves a byte from the unsent ones to the sink, so the transaction level sees nothing of it. -/
theorem refines_sendByte {s : State} {t : TState} (rel : Refines s t) (pending : s.outCnt ≠ 0) :
    Refines (sendByte s) t := by
  obtain ⟨buf, fill, out⟩ := rel
  rw [unsent_eq_cons pending] at out
  exact ⟨buf, fill, by simp [out]⟩

/-- The simulation, one edge: the commuting square of `step` and the operations of R45. -/
theorem step_refines {s s' : State} {t : TState} (rel : Refines s t) (safe : nextOp s = .reset → s.outCnt = 0)
    (h : step s = .next s') : Refines s' (t.applyAll (transactionOps (nextOp s))) := by
  have rel : Refines (sampled s) t := rel
  cases edgeEffect_of_step h with
  | reset op after => rw [op, after]; exact refines_resetRegisters rel (safe op)
  | feed empty b op after => rw [op, after]; exact refines_acceptByte b rel empty
  | feedEos empty b op after => rw [op, after]; exact refines_endStream (refines_acceptByte b rel empty)
  | eos _ op after => rw [op, after]; exact refines_endStream rel
  | idle _ op after => rw [op, after]; exact rel
  | emit pending op after => rw [op, after]; exact refines_sendByte rel pending
  | stall _ op after => rw [op, after]; exact rel

/-- The simulation, any run: the accepted operations of a run that loses no byte lead to a related state. -/
theorem runFor_refines {k : Nat} {s s' : State} {t : TState} (rel : Refines s t) (run : runFor k s = .next s')
    (safe : lossless (history k s) = true) : Refines s' (t.applyAll (acceptedOps (history k s))) := by
  induction k generalizing s t with
  | zero => cases run; exact rel
  | succ k ih =>
    obtain ⟨u, hu, -⟩ := step_effect s
    rw [runFor_succ k hu] at run
    rw [history_succ k hu, lossless_cons] at safe
    obtain ⟨safe_edge, safe_rest⟩ := safe
    rw [history_succ k hu, acceptedOps_cons, applyAll_append]
    exact ih (step_refines rel safe_edge hu) run safe_rest

end Sys2Proof.Machine
end

section
/-! R38: the transaction level only adds to its output, and what it adds does not depend on what is there; so the bytes of a
drained run are a function of the registers and the accepted operations. -/

namespace Sys2Proof.Machine

/-- The same registers, with `earlier` emitted before everything else. -/
def TState.precededBy (earlier : List Byte) (t : TState) : TState := { t with out := earlier ++ t.out }

@[simp] theorem precededBy_out (earlier : List Byte) (t : TState) : (t.precededBy earlier).out = earlier ++ t.out := rfl

theorem feed_precededBy (b : Byte) (earlier : List Byte) (t : TState) :
    (t.precededBy earlier).feed b = (t.feed b).precededBy earlier := by
  by_cases full : t.fill = 2
  · rw [feed_of_full b full, feed_of_full (t := t.precededBy earlier) b full]
    simp [TState.precededBy]
  · rw [feed_of_partial b full, feed_of_partial (t := t.precededBy earlier) b full]
    rfl

theorem apply_precededBy (op : TOp) (earlier : List Byte) (t : TState) :
    (t.precededBy earlier).apply op = (t.apply op).precededBy earlier := by
  cases op with
  | feed b => exact feed_precededBy b earlier t
  | eos => rfl
  | reset => rfl

theorem applyAll_precededBy (ops : List TOp) (earlier : List Byte) (t : TState) :
    (t.precededBy earlier).applyAll ops = (t.applyAll ops).precededBy earlier := by
  induction ops generalizing t with
  | nil => rfl
  | cons op ops ih => rw [applyAll_cons, apply_precededBy, ih, applyAll_cons]

/-- What the operations emit from the given registers of the transaction level. -/
def emittedFrom (buf : Vector Byte 3) (fill : Fin 3) (ops : List TOp) : List Byte :=
  (TState.applyAll ⟨buf, fill, []⟩ ops).out

/-- A state with no byte to send is related to its own registers, preceded by what the sink has taken. -/
theorem refines_of_empty {s : State} (empty : s.outCnt = 0) :
    Refines s (TState.precededBy s.sink ⟨s.buf, s.fill, []⟩) :=
  ⟨rfl, rfl, by rw [precededBy_out, unsent_of_empty empty]⟩

/-- A run that starts and ends drained and loses no byte sends what its accepted operations emit. -/
theorem sink_of_drained_run {k : Nat} {s t : State} (empty : s.outCnt = 0) (run : runFor k s = .next t)
    (safe : lossless (history k s) = true) (drained : t.outCnt = 0) :
    t.sink = s.sink ++ emittedFrom s.buf s.fill (acceptedOps (history k s)) := by
  obtain ⟨-, -, out⟩ := runFor_refines (refines_of_empty empty) run safe
  rw [applyAll_precededBy, precededBy_out, unsent_of_empty drained, List.append_nil] at out
  exact out.symm

/-- Settles O49: both runs send what the same operations emit from the same registers. -/
theorem chunkingDoesNotChangeTheOutput : Obligations.ChunkingDoesNotChangeTheOutput := by
  intro k k' s s' t t' buf fill empty empty' run run' same safe safe' drained drained'
  refine ⟨emittedFrom s.buf s.fill (acceptedOps (history k s)), sink_of_drained_run empty run safe drained, ?_⟩
  rw [buf, fill, same]
  exact sink_of_drained_run empty' run' safe' drained'

end Sys2Proof.Machine
end

section
/-! The decode of R43 path by path, what of a word it reads, and the table row that applies. -/

namespace Sys2Proof

/-! The paths of the pseudocode of R43. -/

section
variable {E : EventWord} (rst : EventWord.rst E = false)
include rst

theorem decode_input_feed (eos : EventWord.inEos E = false) (valid : EventWord.inValid E = true) :
    decode .input E = .feed (EventWord.inData E) := by rw [decode_input rst, eos, valid]

theorem decode_input_feedEos (eos : EventWord.inEos E = true) (valid : EventWord.inValid E = true) :
    decode .input E = .feedEos (EventWord.inData E) := by rw [decode_input rst, eos, valid]

theorem decode_input_eos (eos : EventWord.inEos E = true) (valid : EventWord.inValid E = false) :
    decode .input E = .eos := by rw [decode_input rst, eos, valid]

theorem decode_input_idle (eos : EventWord.inEos E = false) (valid : EventWord.inValid E = false) :
    decode .input E = .idle := by rw [decode_input rst, eos, valid]

theorem decode_output_emit (ready : EventWord.outReady E = true) : decode .output E = .emit := by
  rw [decode_output rst, if_pos ready]

theorem decode_output_stall (ready : EventWord.outReady E = false) : decode .output E = .stall := by
  rw [decode_output rst, ready, if_neg Bool.false_ne_true]

end

/-! The fields that the decode reads in each phase. -/

/-- In the input phase: `rst`, `in_eos`, `in_valid`, and the data byte only while `in_valid = 1`. -/
theorem decode_input_congr {E F : EventWord} (rst : EventWord.rst E = EventWord.rst F)
    (eos : EventWord.inEos E = EventWord.inEos F) (valid : EventWord.inValid E = EventWord.inValid F)
    (data : EventWord.inValid E = true → EventWord.inData E = EventWord.inData F) :
    decode .input E = decode .input F := by
  cases hrst : EventWord.rst F with
  | true => rw [decode_rst _ hrst, decode_rst _ (rst.trans hrst)]
  | false =>
    rw [decode_input hrst, decode_input (rst.trans hrst), eos, valid]
    cases hvalid : EventWord.inValid F with
    | true => rw [data (valid.trans hvalid)]
    | false => cases EventWord.inEos F <;> rfl

/-- In the output phase: `rst` and `out_ready`. -/
theorem decode_output_congr {E F : EventWord} (rst : EventWord.rst E = EventWord.rst F)
    (ready : EventWord.outReady E = EventWord.outReady F) : decode .output E = decode .output F := by
  cases hrst : EventWord.rst F with
  | true => rw [decode_rst _ hrst, decode_rst _ (rst.trans hrst)]
  | false => rw [decode_output hrst, decode_output (rst.trans hrst), ready]

/-! A word and its five signals (R42). -/

/-- Which signal stands at each bit. -/
theorem getLsbD_ofSignals (r e v o : Bool) (d : Byte) (i : Nat) :
    (EventWord.ofSignals r e v o d).getLsbD i = if i < 8 then d.getLsbD i else [o, v, e, r].getD (i - 8) false := by
  simp only [EventWord.ofSignals, BitVec.getLsbD_append, BitVec.getLsbD_ofBool]
  split
  · rfl
  · rcases i - 8 with _ | _ | _ | _ | _ <;> simp

section
variable (r e v o : Bool) (d : Byte)

@[simp] theorem rst_ofSignals : EventWord.rst (EventWord.ofSignals r e v o d) = r :=
  getLsbD_ofSignals r e v o d 11

@[simp] theorem inEos_ofSignals : EventWord.inEos (EventWord.ofSignals r e v o d) = e :=
  getLsbD_ofSignals r e v o d 10

@[simp] theorem inValid_ofSignals : EventWord.inValid (EventWord.ofSignals r e v o d) = v :=
  getLsbD_ofSignals r e v o d 9

@[simp] theorem outReady_ofSignals : EventWord.outReady (EventWord.ofSignals r e v o d) = o :=
  getLsbD_ofSignals r e v o d 8

end

/-- The four strobes of a word, its data byte cleared. -/
def EventWord.strobes (E : EventWord) : EventWord :=
  EventWord.ofSignals (EventWord.rst E) (EventWord.inEos E) (EventWord.inValid E) (EventWord.outReady E) 0

theorem strobes_eq_and (E : EventWord) : EventWord.strobes E = E &&& 0xF00 := by
  ext i hi
  rw [← BitVec.getLsbD_eq_getElem, EventWord.strobes, getLsbD_ofSignals]
  interval_cases i <;> simp [EventWord.rst, EventWord.inEos, EventWord.inValid, EventWord.outReady]

/-- No row of the table reads the data byte. -/
theorem applies_strobes {row : Row} (mem : row ∈ opcodeTable) (p : Phase) (E : EventWord) :
    row.applies p (EventWord.strobes E) = row.applies p E := by
  have masks : ∀ row ∈ opcodeTable, 0xF00 &&& row.mask = row.mask := by decide
  rw [Row.applies, strobes_eq_and, BitVec.and_assoc, masks row mem, Row.applies]

/-- The data byte is an operand only: it does not choose the operation. -/
theorem mnemonic_decode_strobes (p : Phase) (E : EventWord) :
    (decode p (EventWord.strobes E)).mnemonic = (decode p E).mnemonic := by
  cases hrst : EventWord.rst E with
  | true => rw [decode_rst p hrst, decode_rst p (by simp [EventWord.strobes, hrst])]
  | false =>
    have hrst' : EventWord.rst (EventWord.strobes E) = false := by simp [EventWord.strobes, hrst]
    cases p with
    | output => rw [decode_output hrst, decode_output hrst', EventWord.strobes, outReady_ofSignals]
    | input =>
      rw [decode_input hrst, decode_input hrst', EventWord.strobes, inEos_ofSignals, inValid_ofSignals]
      cases EventWord.inEos E <;> cases EventWord.inValid E <;> rfl

/-- The table against the pseudocode at each setting of the four strobes. -/
theorem applies_eq_mnemonic_of_strobes (p : Phase) : ∀ r e v o : Bool, ∀ row ∈ opcodeTable,
    row.applies p (EventWord.ofSignals r e v o 0) =
      decide (row.mnemonic = (decode p (EventWord.ofSignals r e v o 0)).mnemonic) := by
  cases p <;> decide

/-- A row applies exactly when the decoded operation is the one that it names. -/
theorem applies_eq_mnemonic {row : Row} (mem : row ∈ opcodeTable) (p : Phase) (E : EventWord) :
    row.applies p E = decide (row.mnemonic = (decode p E).mnemonic) := by
  rw [← applies_strobes mem, ← mnemonic_decode_strobes]
  exact applies_eq_mnemonic_of_strobes p _ _ _ _ row mem

/-- The table has exactly one row under the mnemonic of an operation. -/
theorem exists_row_of_mnemonic (i : Instr) :
    ∃ row, opcodeTable.filter (fun r => decide (r.mnemonic = i.mnemonic)) = [row] ∧ row.mnemonic = i.mnemonic := by
  cases i <;> exact ⟨_, rfl, rfl⟩

/-- Exactly one row applies, the one of the decoded operation. -/
theorem exists_row_applies (p : Phase) (E : EventWord) :
    ∃ row, opcodeTable.filter (fun r => r.applies p E) = [row] ∧ row.mnemonic = (decode p E).mnemonic := by
  rw [List.filter_congr fun _ mem => applies_eq_mnemonic mem p E]
  exact exists_row_of_mnemonic _

end Sys2Proof

namespace Sys2Proof.Machine

/-! `Step(s, E)` in each phase. -/

theorem atEdge_of_empty {s : State} (empty : s.outCnt = 0) (E : EventWord) :
    atEdge E s = exec (decode .input E) s := by rw [atEdge, phase_of_empty empty]

theorem atEdge_of_pending {s : State} (pending : s.outCnt ≠ 0) (E : EventWord) :
    atEdge E s = exec (decode .output E) s := by rw [atEdge, phase_of_pending pending]

theorem atEdge_of_rst {E : EventWord} (rst : EventWord.rst E = true) (s : State) :
    atEdge E s = .next (resetRegisters s) := by rw [atEdge, decode_rst _ rst, exec_reset]

/-- Every operation answers a next state in every state. -/
theorem exec_total (i : Instr) (s : State) : ∃ t, exec i s = .next t := by
  cases i <;> exact ⟨_, rfl⟩

/-- Settles O11: one lemma for each path of the pseudocode, and each row of the table applies exactly when decode answers the
operation that it names. -/
theorem decodeSelectsExactlyOneRow : Obligations.DecodeSelectsExactlyOneRow := by
  refine ⟨fun s E => ⟨decode_rst (phase s), fun rst empty => ?_, fun rst pending => ?_, exists_row_applies _ E, rfl⟩, rfl⟩
  · rw [phase_of_empty empty]
    exact ⟨decode_input_feed rst, decode_input_feedEos rst, decode_input_eos rst, decode_input_idle rst⟩
  · rw [phase_of_pending pending]
    exact ⟨decode_output_emit rst, decode_output_stall rst⟩

/-- Settles O12: `exec` is total, and two words that agree in the fields that the decode reads select the same operation. -/
theorem everyWordIsLegalAndIgnoredFieldsDoNothing : Obligations.EveryWordIsLegalAndIgnoredFieldsDoNothing := by
  refine fun s => ⟨fun E => exec_total _ s, fun E F rst rst' => ?_, fun E F empty rst eos valid data => ?_,
    fun E F pending rst ready => ?_⟩
  · rw [atEdge_of_rst rst, atEdge_of_rst rst']
  · rw [atEdge_of_empty empty, atEdge_of_empty empty, decode_input_congr rst eos valid data]
  · rw [atEdge_of_pending pending, atEdge_of_pending pending, decode_output_congr rst ready]

end Sys2Proof.Machine
end

section
/-! The Channel Converter (R60 to R67): K against the largest component, the range of each value of the datapath, and the
output bytes as the exact results of their channels. -/

namespace Sys2Proof.Machine

/-! The inverted channels and K. -/

/-- The subtraction of step 1 never borrows (R61). -/
theorem invert_add_toNat (x : Byte) : invert x + x.toNat = 255 := Nat.sub_add_cancel (Nat.le_of_lt_succ x.isLt)

theorem invert_eq_toNat_not (x : Byte) : invert x = (~~~x).toNat := by rw [BitVec.toNat_not, invert_eq]

theorem keyOf_le (r g b : Byte) : keyOf r g b ≤ 255 := (keyOf_le_left r g b).trans (invert_le r)

theorem keyOf_le_invert_of_mem {r g b x : Byte} (mem : x ∈ [r, g, b]) : keyOf r g b ≤ invert x := by
  simp only [List.mem_cons, List.not_mem_nil, or_false] at mem
  obtain rfl | rfl | rfl := mem
  · exact keyOf_le_left ..
  · exact keyOf_le_mid ..
  · exact keyOf_le_right ..

/-- K is the complement of the largest component (R66). -/
theorem keyOf_add_max (r g b : Byte) : keyOf r g b + max (max r.toNat g.toNat) b.toNat = 255 := by
  have hr := invert_add_toNat r
  have hg := invert_add_toNat g
  have hb := invert_add_toNat b
  unfold keyOf
  omega

/-- The divisor iK is the largest component (R66). -/
theorem divisor_eq_max (r g b : Byte) : 255 - keyOf r g b = max (max r.toNat g.toNat) b.toNat :=
  Nat.sub_eq_of_eq_add' (keyOf_add_max r g b).symm

theorem max_toNat_eq_zero_iff (r g b : Byte) :
    max (max r.toNat g.toNat) b.toNat = 0 ↔ r = 0 ∧ g = 0 ∧ b = 0 := by
  simp [← BitVec.toNat_inj]

theorem keyOf_eq_255_iff_max (r g b : Byte) : keyOf r g b = 255 ↔ max (max r.toNat g.toNat) b.toNat = 0 := by
  have sum := keyOf_add_max r g b
  omega

theorem keyOf_eq_255_iff (r g b : Byte) : keyOf r g b = 255 ↔ r = 0 ∧ g = 0 ∧ b = 0 :=
  (keyOf_eq_255_iff_max r g b).trans (max_toNat_eq_zero_iff r g b)

/-- K = 255 is the only value without a divisor: every other one leaves iK positive. -/
theorem keyOf_lt_of_ne {r g b : Byte} (ne : keyOf r g b ≠ 255) : keyOf r g b < 255 := (keyOf_le r g b).lt_of_ne ne

theorem invert_sub_keyOf (r g b x : Byte) :
    invert x - keyOf r g b = max (max r.toNat g.toNat) b.toNat - x.toNat := by
  have sum := keyOf_add_max r g b
  have hx := invert_add_toNat x
  omega

theorem convert_black : convert 0 0 0 = #v[0, 0, 0, 255] := by decide

/-! One channel: its product and its quotient. -/

theorem channelProduct_eq (iX k : Nat) : channelProduct iX k = 255 * (iX - k) := rfl

theorem channelProduct_le {iX : Nat} (k : Nat) (h : iX ≤ 255) : channelProduct iX k ≤ 65025 := by
  rw [channelProduct_eq]; omega

/-- Where the largest product is reached (R64). -/
theorem channelProduct_eq_65025_iff {iX : Nat} (k : Nat) (h : iX ≤ 255) :
    channelProduct iX k = 65025 ↔ k = 0 ∧ iX = 255 := by
  rw [channelProduct_eq]; omega

/-- A channel whose inverted value is K has nothing to divide. -/
@[simp] theorem channel_self (k : Nat) : channel k k = 0 := by
  by_cases h : k = 255
  · rw [h, channel_degenerate]
  · rw [channel_division k h, Nat.sub_self, Nat.mul_zero, Nat.zero_div]

/-- The difference is at most the divisor, so the quotient is at most 255 (R63). -/
theorem channel_le {iX : Nat} (k : Nat) (h : iX ≤ 255) : channel iX k ≤ 255 := by
  by_cases hk : k = 255
  · rw [hk, channel_degenerate]
    exact Nat.zero_le 255
  · rw [channel_division iX hk]
    have difference_le : iX - k ≤ 255 - k := Nat.sub_le_sub_right h k
    exact Nat.div_le_of_le_mul (by omega)

/-- The two bounds of the floor of R65. -/
theorem channel_floor {k : Nat} (iX : Nat) (h : k < 255) :
    channel iX k * (255 - k) ≤ 255 * (iX - k) ∧ 255 * (iX - k) < (channel iX k + 1) * (255 - k) := by
  have divisor_pos : 0 < 255 - k := Nat.sub_pos_of_lt h
  rw [channel_division iX h.ne]
  exact ⟨Nat.div_mul_le_self .., (Nat.div_lt_iff_lt_mul divisor_pos).mp (Nat.lt_succ_self _)⟩

/-! The four results and their bytes. -/

theorem convertExact_le (r g b : Byte) (j : Fin 4) : (convertExact r g b)[j] ≤ 255 := by
  match j with
  | 0 => exact channel_le _ (invert_le r)
  | 1 => exact channel_le _ (invert_le g)
  | 2 => exact channel_le _ (invert_le b)
  | 3 => exact keyOf_le r g b

/-- Narrowing loses nothing (R63). -/
theorem toNat_convert (r g b : Byte) (j : Fin 4) : (convert r g b)[j].toNat = (convertExact r g b)[j] := by
  rw [convert_get, BitVec.toNat_ofNat, Nat.mod_eq_of_lt (Nat.lt_succ_of_le (convertExact_le r g b j))]

section
variable (r g b : Byte)

theorem toNat_convert_c : (convert r g b)[0].toNat = channel (invert r) (keyOf r g b) := toNat_convert r g b 0
theorem toNat_convert_m : (convert r g b)[1].toNat = channel (invert g) (keyOf r g b) := toNat_convert r g b 1
theorem toNat_convert_y : (convert r g b)[2].toNat = channel (invert b) (keyOf r g b) := toNat_convert r g b 2
theorem toNat_convert_k : (convert r g b)[3].toNat = keyOf r g b := toNat_convert r g b 3

variable {r g b}

theorem convert_c_eq_zero (key : invert r = keyOf r g b) : (convert r g b)[0] = 0 :=
  BitVec.eq_of_toNat_eq (by rw [toNat_convert_c, key, channel_self]; rfl)

theorem convert_m_eq_zero (key : invert g = keyOf r g b) : (convert r g b)[1] = 0 :=
  BitVec.eq_of_toNat_eq (by rw [toNat_convert_m, key, channel_self]; rfl)

theorem convert_y_eq_zero (key : invert b = keyOf r g b) : (convert r g b)[2] = 0 :=
  BitVec.eq_of_toNat_eq (by rw [toNat_convert_y, key, channel_self]; rfl)

end

/-- A channel in the terms of R66, where the largest component is the divisor. -/
theorem channel_eq_closedForm {r g b : Byte} (x : Byte) (ne : max (max r.toNat g.toNat) b.toNat ≠ 0) :
    channel (invert x) (keyOf r g b) =
      255 * (max (max r.toNat g.toNat) b.toNat - x.toNat) / max (max r.toNat g.toNat) b.toNat := by
  have divides : keyOf r g b ≠ 255 := mt (keyOf_eq_255_iff_max r g b).mp ne
  rw [channel_division _ divides, invert_sub_keyOf, divisor_eq_max]

/-! The statements. -/

/-- Settles O1: a component and its inverse add up to 255, the value with all eight bits set. -/
theorem invertedChannelIsComplement : Obligations.InvertedChannelIsComplement := fun x =>
  ⟨Nat.le_of_lt_succ x.isLt, invert_le x, invert_add_toNat x, invert_eq_toNat_not x⟩

/-- Settles O2: K is the complement of the largest component, so it is 255 exactly where all three are 0. -/
theorem keyIs255ExactlyForBlack : Obligations.KeyIs255ExactlyForBlack := by
  refine ⟨keyOf_le, keyOf_eq_255_iff, convert_black, fun r g b not_black => ?_⟩
  have key_lt : keyOf r g b < 255 := keyOf_lt_of_ne (mt (keyOf_eq_255_iff r g b).mp not_black)
  exact ⟨Nat.le_of_lt_succ key_lt, Nat.sub_pos_of_lt key_lt, Nat.sub_le ..⟩

/-- Settles O3: K is the minimum of the inverted channels, and no quotient exceeds 255. -/
theorem convertResultsFitBytes : Obligations.ConvertResultsFitBytes := fun r g b =>
  ⟨⟨keyOf_le_left r g b, keyOf_le_mid r g b, keyOf_le_right r g b⟩,
    fun j => ⟨convertExact_le r g b j, toNat_convert r g b j⟩⟩

/-- Settles O4: each range from the bounds of its own part, the largest product from its exact condition. -/
theorem datapathRanges : Obligations.DatapathRanges := by
  refine ⟨fun r g b => ⟨keyOf_le r g b, fun ne => ?_, fun x mem => ?_⟩, by decide, by decide⟩
  · exact ⟨Nat.sub_pos_of_lt (keyOf_lt_of_ne ne), Nat.sub_le ..⟩
  · have inverted_le : invert x ≤ 255 := invert_le x
    have product_le := channelProduct_le (keyOf r g b) inverted_le
    exact ⟨inverted_le, keyOf_le_invert_of_mem mem, (Nat.sub_le ..).trans inverted_le, product_le,
      product_le.trans_lt (by decide), channel_le _ inverted_le, channelProduct_eq_65025_iff _ inverted_le⟩

/-- Settles O5: each output byte is its channel, whose quotient lies between the two bounds of the floor. -/
theorem channelsAreFloorsOfTheFullProduct : Obligations.ChannelsAreFloorsOfTheFullProduct := by
  refine ⟨fun r g b ne => ?_, by decide, by decide⟩
  have floor (x : Byte) := channel_floor (invert x) (keyOf_lt_of_ne ne)
  dsimp only
  rw [toNat_convert_c, toNat_convert_m, toNat_convert_y]
  exact ⟨toNat_convert_k r g b, floor r, floor g, floor b⟩

/-- Settles O6: with K the complement of the largest component, the divisor is that component. -/
theorem convertHasClosedForm : Obligations.ConvertHasClosedForm := by
  refine fun r g b => ⟨fun black => ?_, fun ne => ?_⟩
  · obtain ⟨rfl, rfl, rfl⟩ := (max_toNat_eq_zero_iff r g b).mp black
    exact convert_black
  · have key : keyOf r g b = 255 - max (max r.toNat g.toNat) b.toNat := Nat.eq_sub_of_add_eq (keyOf_add_max r g b)
    exact ⟨key, divisor_eq_max r g b, fun x _ => invert_sub_keyOf r g b x,
      (toNat_convert_c r g b).trans (channel_eq_closedForm r ne),
      (toNat_convert_m r g b).trans (channel_eq_closedForm g ne),
      (toNat_convert_y r g b).trans (channel_eq_closedForm b ne), (toNat_convert_k r g b).trans key⟩

/-- Settles O7: K is one of the inverted channels, and a channel whose inverted value is K is 0. -/
theorem oneChannelIsZero : Obligations.OneChannelIsZero := by
  refine fun r g b => ⟨convert_c_eq_zero, convert_m_eq_zero, convert_y_eq_zero, ?_, fun degenerate => ?_⟩
  · exact (keyOf_cases r g b).imp (fun key => convert_c_eq_zero key.symm)
      (Or.imp (fun key => convert_m_eq_zero key.symm) fun key => convert_y_eq_zero key.symm)
  · obtain ⟨rfl, rfl, rfl⟩ := (keyOf_eq_255_iff r g b).mp degenerate
    exact ⟨convert_c_eq_zero rfl, convert_m_eq_zero rfl, convert_y_eq_zero rfl⟩

end Sys2Proof.Machine
end

section
/-! The two handshakes (R80, R81, R100), and what decode selects with and without an input transfer. -/

namespace Sys2Proof.Machine

/-! Which phase's decode applies. -/

theorem decode_of_empty {s : State} (empty : s.outCnt = 0) (E : EventWord) :
    decode (phase s) E = decode .input E := by rw [phase_of_empty empty]

theorem decode_of_pending {s : State} (pending : s.outCnt ≠ 0) (E : EventWord) :
    decode (phase s) E = decode .output E := by rw [phase_of_pending pending]

/-! The status outputs and the transfers. -/

theorem inReady_of_pending {s : State} (pending : s.outCnt ≠ 0) : inReady s = false := by simp [inReady, pending]

theorem outValid_of_empty {s : State} (empty : s.outCnt = 0) : outValid s = false := by simp [outValid, empty]

theorem outValid_eq_not_inReady (s : State) : outValid s = !inReady s := decide_not

theorem inputTransfer_iff (s : State) (E : EventWord) :
    inputTransfer s E = true ↔ EventWord.rst E = false ∧ inReady s = true ∧
      (EventWord.inValid E = true ∨ EventWord.inEos E = true) := by
  simp only [inputTransfer, Bool.and_eq_true, Bool.or_eq_true, Bool.not_eq_true', and_assoc]

theorem inputTransfer_of_pending {s : State} (pending : s.outCnt ≠ 0) (E : EventWord) : inputTransfer s E = false := by
  rw [inputTransfer, inReady_of_pending pending, Bool.and_false, Bool.false_and]

theorem outputTransfer_of_empty {s : State} (empty : s.outCnt = 0) (E : EventWord) : outputTransfer s E = false := by
  rw [outputTransfer, outValid_of_empty empty, Bool.and_false, Bool.false_and]

/-- Each channel is closed in one of the two phases. -/
theorem not_inputTransfer_and_outputTransfer (s : State) (E : EventWord) :
    ¬ (inputTransfer s E = true ∧ outputTransfer s E = true) := by
  rintro ⟨input, output⟩
  obtain empty | pending := eq_or_ne s.outCnt 0
  · exact Bool.false_ne_true ((outputTransfer_of_empty empty E).symm.trans output)
  · exact Bool.false_ne_true ((inputTransfer_of_pending pending E).symm.trans input)

/-! What decode selects without an input transfer. -/

/-- In the output phase, with `rst = 0`, only EMIT and STALL are left (R88). -/
theorem decode_output_emit_or_stall {E : EventWord} (rst : EventWord.rst E = false) :
    decode .output E = .emit ∨ decode .output E = .stall := by
  rw [decode_output rst]
  exact ite_eq_or_eq _ _ _

/-- Without an input transfer the edge performs none of FEED, FEED_EOS and EOS: `rst` is 1, or the CORE is in the output
phase, or neither strobe is set. -/
theorem decode_of_no_inputTransfer {s : State} {E : EventWord} (no_transfer : inputTransfer s E = false) :
    decode (phase s) E ∈ [Instr.reset, .emit, .stall, .idle] := by
  cases rst : EventWord.rst E with
  | true => simp [decode_rst _ rst]
  | false =>
    obtain empty | pending := eq_or_ne s.outCnt 0
    · have strobes : EventWord.inValid E = false ∧ EventWord.inEos E = false := by
        simpa [inputTransfer, rst, (inReady_iff s).mpr empty] using no_transfer
      obtain ⟨valid, eos⟩ := strobes
      simp [decode_of_empty empty, decode_input_idle rst eos valid]
    · rw [decode_of_pending pending]
      obtain op | op := decode_output_emit_or_stall rst <;> simp [op]

/-- EMIT and STALL write no register of the input side, and not the output register. -/
theorem exec_emit_or_stall_frame {i : Instr} (op : i = .emit ∨ i = .stall) {s : State} (pending : s.outCnt ≠ 0) :
    ∃ t, exec i s = .next t ∧ t.buf = s.buf ∧ t.fill = s.fill ∧ t.outReg = s.outReg := by
  obtain rfl | rfl := op
  · exact ⟨sendByte s, by rw [exec_emit, inOutputPhase_of_pending _ pending], rfl, rfl, rfl⟩
  · exact ⟨s, exec_stall s, rfl, rfl, rfl⟩

/-! The statements. -/

/-- Settles O14: both outputs are tests of `out_cnt` against 0, and each transfer asks for the output of its channel. -/
theorem readyAndValidAreComplements : Obligations.ReadyAndValidAreComplements := fun s =>
  ⟨inReady_iff s, outValid_iff s, outValid_eq_not_inReady s, fun E =>
    ⟨fun pending => inputTransfer_of_pending pending E, fun empty => outputTransfer_of_empty empty E,
      not_inputTransfer_and_outputTransfer s E⟩⟩

/-- Settles O15: a transfer happens in the input phase with `rst = 0`, where the strobes choose the path of the decode. -/
theorem inputTransferSelectsByStrobes : Obligations.InputTransferSelectsByStrobes := by
  refine fun s E => ⟨inputTransfer_iff s E, fun transfer => ?_, fun no_transfer => ?_⟩
  · obtain ⟨rst, ready, -⟩ := (inputTransfer_iff s E).mp transfer
    rw [decode_of_empty ((inReady_iff s).mp ready)]
    exact ⟨fun valid eos => decode_input_feed rst eos valid, fun valid eos => decode_input_feedEos rst eos valid,
      fun valid eos => decode_input_eos rst eos valid⟩
  · have op := decode_of_no_inputTransfer no_transfer
    exact ⟨fun eq => by simp [eq] at op, fun b => ⟨fun eq => by simp [eq] at op, fun eq => by simp [eq] at op⟩⟩

/-- Settles O27: the output phase reads `rst` and `out_ready` only, and performs EMIT or STALL, which store no input. -/
theorem inputIsIgnoredInTheOutputPhase : Obligations.InputIsIgnoredInTheOutputPhase := by
  intro s pending
  refine ⟨inReady_of_pending pending, fun E rst => ?_, fun e v e' v' o d d' => ?_, fun E rst => ?_⟩
  · rw [decode_of_pending pending]
    exact decode_output_emit_or_stall rst
  · rw [atEdge_of_pending pending, atEdge_of_pending pending]
    exact congrArg (exec · s) (decode_output_congr (by simp) (by simp))
  · rw [atEdge_of_pending pending]
    exact exec_emit_or_stall_frame (decode_output_emit_or_stall rst) pending

end Sys2Proof.Machine
end

section
/-! The input-phase operations with their whole next states (R82 to R87): the feed step at each value of `fill`, at the cycle
level and at the transaction level. -/

namespace Sys2Proof.Machine

/-! The buffer after a write of the slot that `fill` names. -/

theorem eq_slots (buf : Vector Byte 3) : buf = #v[buf[0], buf[1], buf[2]] := by
  ext i hi : 1
  interval_cases i <;> rfl

section
variable {fill : Fin 3} (buf : Vector Byte 3) (b : Byte)

theorem set_of_fill_zero (h : fill = 0) : buf.set fill.val b fill.isLt = #v[b, buf[1], buf[2]] := by
  rw [eq_slots buf, h]
  rfl

theorem set_of_fill_one (h : fill = 1) : buf.set fill.val b fill.isLt = #v[buf[0], b, buf[2]] := by
  rw [eq_slots buf, h]
  rfl

theorem set_of_fill_two (h : fill = 2) : buf.set fill.val b fill.isLt = #v[buf[0], buf[1], b] := by
  rw [eq_slots buf, h]
  rfl

end

/-! The feed step of the cycle level. -/

section
variable {s : State} (b : Byte)

theorem acceptByte_of_fill_zero (h : s.fill = 0) :
    acceptByte b s = { s with buf := #v[b, s.buf[1], s.buf[2]], fill := 1 } := by
  rw [acceptByte_of_partial b (by simp [h]), storeByte, set_of_fill_zero _ b h, h]
  rfl

theorem acceptByte_of_fill_one (h : s.fill = 1) :
    acceptByte b s = { s with buf := #v[s.buf[0], b, s.buf[2]], fill := 2 } := by
  rw [acceptByte_of_partial b (by simp [h]), storeByte, set_of_fill_one _ b h, h]
  rfl

theorem acceptByte_of_fill_two (h : s.fill = 2) :
    acceptByte b s =
      { s with buf := #v[s.buf[0], s.buf[1], b], outReg := convert s.buf[0] s.buf[1] b, outCnt := 4, fill := 0 } := by
  rw [acceptByte_of_full b h, complete, ← set_of_fill_two s.buf b rfl]
  rfl

end

/-! The feed step of the transaction level. -/

section
variable {t : TState} (b : Byte)

theorem feed_of_fill_zero (h : t.fill = 0) : t.feed b = ⟨#v[b, t.buf[1], t.buf[2]], 1, t.out⟩ := by
  rw [feed_of_partial b (by simp [h]), set_of_fill_zero _ b h, h]
  rfl

theorem feed_of_fill_one (h : t.fill = 1) : t.feed b = ⟨#v[t.buf[0], b, t.buf[2]], 2, t.out⟩ := by
  rw [feed_of_partial b (by simp [h]), set_of_fill_one _ b h, h]
  rfl

theorem feed_of_fill_two (h : t.fill = 2) :
    t.feed b = ⟨#v[t.buf[0], t.buf[1], b], 0, t.out ++ (convert t.buf[0] t.buf[1] b).toList⟩ := by
  rw [feed_of_full b h, ← set_of_fill_two t.buf b rfl]
  rfl

end

/-! The operations in the input phase. -/

section
variable {s : State} (empty : s.outCnt = 0)
include empty

theorem exec_feed_of_empty (b : Byte) : exec (.feed b) s = .next (acceptByte b s) := by
  rw [exec_feed, inInputPhase_of_empty _ empty]

theorem exec_feedEos_of_empty (b : Byte) : exec (.feedEos b) s = .next (endStream (acceptByte b s)) := by
  rw [exec_feedEos, inInputPhase_of_empty _ empty]

theorem exec_eos_of_empty : exec .eos s = .next (endStream s) := by
  rw [exec_eos, inInputPhase_of_empty _ empty]

end

/-- With nothing stored there is nothing to discard. -/
theorem endStream_of_fill_zero {s : State} (h : s.fill = 0) : endStream s = s := by
  rw [endStream, ← h]

/-! The statements. -/

/-- Settles O20: the feed step at each value of `fill`, at both levels. -/
theorem feedStoresOrCompletes : Obligations.FeedStoresOrCompletes := by
  refine ⟨fun s E empty rst eos valid => ?_, fun s b empty => ?_, fun t b =>
    ⟨feed_of_fill_zero b, feed_of_fill_one b, feed_of_fill_two b⟩⟩
  · rw [decode_of_empty empty]
    exact decode_input_feed rst eos valid
  · rw [exec_feed_of_empty empty]
    exact ⟨fun fill => congrArg _ (acceptByte_of_fill_zero b fill),
      fun fill => congrArg _ (acceptByte_of_fill_one b fill),
      fun fill => ⟨congrArg _ (acceptByte_of_fill_two b fill), rfl, rfl⟩⟩

/-- Settles O21: both operations complete the pixel, and the end of the stream finds `fill` cleared already. -/
theorem completionLoadsThePixel : Obligations.CompletionLoadsThePixel := by
  intro s b empty full
  refine ⟨?_, ?_, rfl, unsent_complete b s, fun u buf fill => ?_⟩
  · rw [exec_feed_of_empty empty, acceptByte_of_fill_two b full]
  · rw [exec_feedEos_of_empty empty, acceptByte_of_fill_two b full, endStream_of_fill_zero rfl]
  · rw [apply_feed, feed_of_full b fill, buf]
    exact congrArg _ (unsent_complete b s).symm

/-- Settles O22: FEED_EOS is the feed step and then `fill` cleared, at each value of `fill`. -/
theorem feedEosFeedsThenEndsTheStream : Obligations.FeedEosFeedsThenEndsTheStream := by
  refine ⟨fun s E empty rst eos valid => ?_, fun s b empty => ?_, fun b => rfl⟩
  · rw [decode_of_empty empty]
    exact decode_input_feedEos rst eos valid
  · have ends_after_feed := exec_feedEos_of_empty empty b
    refine ⟨fun fill => ?_, fun fill => ?_, fun fill => ?_, acceptByte b s, exec_feed_of_empty empty b, ends_after_feed⟩
    · rw [ends_after_feed, acceptByte_of_fill_zero b fill, endStream]
    · rw [ends_after_feed, acceptByte_of_fill_one b fill, endStream]
    · rw [ends_after_feed, acceptByte_of_fill_two b fill, endStream]

/-- Settles O23: EOS only clears `fill`, and the output phase never selects it. -/
theorem eosDiscardsThePartialPixel : Obligations.EosDiscardsThePartialPixel := by
  refine ⟨fun s E empty rst eos valid => ?_, fun s empty => exec_eos_of_empty empty, fun s empty fill => ?_,
    fun s E pending eos => ?_, apply_eos⟩
  · rw [decode_of_empty empty]
    exact decode_input_eos rst eos valid
  · rw [exec_eos_of_empty empty, endStream_of_fill_zero fill]
  · have op := decode_of_no_inputTransfer (inputTransfer_of_pending pending E)
    simp [eos] at op

/-- Settles O24: with neither strobe the decode of the input phase answers IDLE, whose arm is the identity. -/
theorem idleChangesNothing : Obligations.IdleChangesNothing := by
  refine ⟨fun s E empty rst eos valid => ?_, exec_idle⟩
  rw [decode_of_empty empty]
  exact decode_input_idle rst eos valid

end Sys2Proof.Machine
end

section
/-! Streams of bytes at the transaction level (R86, R89): three bytes a pixel, in order, and what a trailing partial pixel
leaves. -/

namespace Sys2Proof.Machine

/-- Three bytes fed at `fill = 0` are one pixel. -/
theorem feed_feed_feed {t : TState} (empty : t.fill = 0) (r g b : Byte) :
    ((t.feed r).feed g).feed b = ⟨#v[r, g, b], 0, t.out ++ (convert r g b).toList⟩ := by
  rw [feed_of_fill_zero r empty, feed_of_fill_one g rfl, feed_of_fill_two b rfl]
  rfl

/-- Feeding a stream emits its whole pixels and leaves the bytes over counted in `fill`. The recursion is that of
`convertStream`: a pixel at a time. -/
theorem applyAll_feeds : ∀ (bytes : List Byte) {t : TState}, t.fill = 0 →
    (t.applyAll (bytes.map .feed)).out = t.out ++ convertStream bytes ∧
    (t.applyAll (bytes.map .feed)).fill.val = bytes.length % 3
  | [], t, empty => by simp [convertStream, empty]
  | [r], t, empty => by simp [convertStream, feed_of_fill_zero r empty]
  | [r, g], t, empty => by simp [convertStream, feed_of_fill_zero r empty, feed_of_fill_one]
  | r :: g :: b :: rest, t, empty => by
    simp only [List.map_cons, applyAll_cons, apply_feed, feed_feed_feed empty]
    obtain ⟨out, fill⟩ := applyAll_feeds rest (t := ⟨#v[r, g, b], 0, t.out ++ (convert r g b).toList⟩) rfl
    exact ⟨by rw [out, List.append_assoc, convertStream_cons], fill.trans (Nat.add_mod_right rest.length 3).symm⟩

theorem out_applyAll_feeds {t : TState} (empty : t.fill = 0) (bytes : List Byte) :
    (t.applyAll (bytes.map .feed)).out = t.out ++ convertStream bytes := (applyAll_feeds bytes empty).1

theorem fill_applyAll_feeds {t : TState} (empty : t.fill = 0) (bytes : List Byte) :
    (t.applyAll (bytes.map .feed)).fill.val = bytes.length % 3 := (applyAll_feeds bytes empty).2

/-- The four bytes of pixel `p` of a stream: CONVERT of bytes 3p, 3p + 1 and 3p + 2 (R89). -/
def pixelBytes (bytes : List Byte) (p : Nat) : List Byte :=
  (convert (bytes.getD (3 * p) 0) (bytes.getD (3 * p + 1) 0) (bytes.getD (3 * p + 2) 0)).toList

/-- The first pixel taken off, the next one is the first of the rest. -/
theorem pixelBytes_succ (r g b : Byte) (rest : List Byte) (p : Nat) :
    pixelBytes (r :: g :: b :: rest) (p + 1) = pixelBytes rest p := rfl

/-- The output of a stream, pixel by pixel in the order of their numbers. -/
theorem convertStream_eq_flatMap : ∀ bytes : List Byte,
    convertStream bytes = (List.range (bytes.length / 3)).flatMap (pixelBytes bytes)
  | [] => by simp [convertStream]
  | [_] => by simp [convertStream]
  | [_, _] => by simp [convertStream]
  | r :: g :: b :: rest => by
    have pixels : (r :: g :: b :: rest).length / 3 = rest.length / 3 + 1 := Nat.add_div_right rest.length zero_lt_three
    rw [pixels, List.range_succ_eq_map, List.flatMap_cons, List.flatMap_map, convertStream_cons,
      convertStream_eq_flatMap rest]
    rfl

theorem length_convertStream (bytes : List Byte) : (convertStream bytes).length = 4 * (bytes.length / 3) := by
  simp [convertStream_eq_flatMap, pixelBytes, List.length_flatMap, Nat.mul_comm]

/-! The statements. -/

/-- Settles O51: the feeds emit the output of the stream, which is its pixels in order. -/
theorem everyThreeBytesEmitOnePixel : Obligations.EveryThreeBytesEmitOnePixel := by
  refine ⟨fun t bytes n empty length => ⟨Fin.ext ?_, ?_⟩, fun t bytes empty => fill_applyAll_feeds empty bytes⟩
  · rw [fill_applyAll_feeds empty, length]
    exact Nat.mul_mod_right 3 n
  · rw [out_applyAll_feeds empty, convertStream_eq_flatMap, length, Nat.mul_div_cancel_left n (by decide)]
    rfl

/-- Settles O52: no way of ending the stream adds to the output or keeps a count, and bytes fed later join the same stream. -/
theorem trailingPartialPixelIsDropped : Obligations.TrailingPartialPixelIsDropped := by
  intro t bytes empty
  have emitted := out_applyAll_feeds empty bytes
  rw [applyAll_append, applyAll_append]
  refine ⟨length_convertStream bytes, emitted, rfl, fun b => rfl, emitted, rfl, emitted, fill_applyAll_feeds empty bytes,
    fun later => ?_⟩
  rw [← List.map_append]
  exact out_applyAll_feeds empty (bytes ++ later)

end Sys2Proof.Machine
end

section
/-! The output-phase operations (R102 to R104): the byte that EMIT sends at each value of `out_cnt`, runs of edges that hold the
state, and the input phase, where `out_ready` is not read. -/

namespace Sys2Proof.Machine

/-! EMIT. -/

/-- With `n + 1` bytes unsent, EMIT sends `out_reg[4 - (n + 1)]` and leaves `n` (R102). -/
theorem exec_emit_of_outCnt {s : State} (n : Fin 4) (h : s.outCnt = n.succ) :
    exec .emit s = .next { s with sink := s.sink ++ [s.outReg[3 - n.val]], outCnt := n.castSucc } := by
  have pending : s.outCnt ≠ 0 := h ▸ Fin.succ_ne_zero n
  have count : s.outCnt.val = n.val + 1 := congrArg Fin.val h
  have offered : outData s = s.outReg[3 - n.val] := by
    rw [outData_of_pending (count ▸ Nat.succ_ne_zero n)]
    simp [count]
  have left : (⟨s.outCnt.val - 1, by omega⟩ : Fin 5) = n.castSucc := Fin.ext (by simp [count])
  rw [exec_emit, inOutputPhase_of_pending _ pending, sendByte, offered, left]

/-! Edges that hold the state. -/

/-- An edge whose word selects IDLE or STALL only moves the schedule on (R87, R103). -/
theorem step_of_idle_or_stall {s : State} {E : EventWord} {rest : List EventWord} (stim : s.stim = E :: rest)
    (op : decode (phase s) E = .idle ∨ decode (phase s) E = .stall) :
    step s = .next { s with stim := rest, edge := s.edge + 1 } := by
  have holds : exec (decode (phase s) E) (sampled s) = .next (sampled s) := by
    obtain op | op := op <;> rw [op]
    · exact exec_idle _
    · exact exec_stall _
  rw [step_eq, nextOp, nextEvent_cons stim, holds, sampled, stim, List.tail_cons]

/-- Any number of such edges; the phase stays, so the words are all read in the phase of the first state. -/
theorem runFor_of_idle_or_stall {s : State} {es rest : List EventWord} (stim : s.stim = es ++ rest)
    (ops : ∀ E ∈ es, decode (phase s) E = .idle ∨ decode (phase s) E = .stall) :
    runFor es.length s = .next { s with stim := rest, edge := s.edge + es.length } := by
  induction es generalizing s with
  | nil => rw [List.nil_append] at stim; rw [← stim]; rfl
  | cons E es ih =>
    obtain ⟨op, ops⟩ := List.forall_mem_cons.mp ops
    have after := ih (s := { s with stim := es ++ rest, edge := s.edge + 1 }) rfl ops
    rw [List.length_cons, runFor_succ _ (step_of_idle_or_stall stim op), Nat.add_comm es.length, ← Nat.add_assoc]
    exact after

/-- While bytes are unsent, `out_data` is read off the registers: the schedule and the cycle number do not reach it. -/
theorem outData_schedule {s : State} (pending : s.outCnt ≠ 0) (stim : List EventWord) (edge : Nat) :
    outData { s with stim := stim, edge := edge } = outData s := by
  simp [outData, pending]

/-! The input phase. -/

@[simp] theorem inData_ofSignals (r e v o : Bool) (d : Byte) : EventWord.inData (EventWord.ofSignals r e v o d) = d :=
  BitVec.eq_of_getLsbD_eq fun i hi => by simp [EventWord.inData, getLsbD_ofSignals, hi]

theorem decode_input_ofSignals_outReady (r e v o o' : Bool) (d : Byte) :
    decode .input (EventWord.ofSignals r e v o d) = decode .input (EventWord.ofSignals r e v o' d) :=
  decode_input_congr (by simp) (by simp) (by simp) (by simp)

@[simp] theorem acceptByte_sink (b : Byte) (s : State) : (acceptByte b s).sink = s.sink := by
  obtain ⟨-, eq⟩ | ⟨-, eq⟩ := acceptByte_cases b s <;> rw [eq]
  · exact complete_sink b s
  · exact storeByte_sink b s

/-- No operation sends a byte while `out_cnt = 0`: the input side does not write the sink, and EMIT does nothing there. -/
theorem exec_sink_of_empty (i : Instr) {s : State} (empty : s.outCnt = 0) :
    ∃ t, exec i s = .next t ∧ t.sink = s.sink := by
  cases i with
  | reset => exact ⟨_, exec_reset s, resetRegisters_sink s⟩
  | feed b => exact ⟨_, exec_feed_of_empty empty b, acceptByte_sink b s⟩
  | feedEos b => exact ⟨_, exec_feedEos_of_empty empty b, acceptByte_sink b s⟩
  | eos => exact ⟨_, exec_eos_of_empty empty, endStream_sink s⟩
  | idle => exact ⟨_, exec_idle s, rfl⟩
  | emit => exact ⟨s, by rw [exec_emit, inOutputPhase_of_empty _ empty], rfl⟩
  | stall => exact ⟨_, exec_stall s, rfl⟩

/-! The statements. -/

/-- Settles O25: the step of EMIT at `out_cnt` 4, 3, 2 and 1; after the last byte nothing is pending. -/
theorem emitSendsTheNextByte : Obligations.EmitSendsTheNextByte := by
  refine ⟨fun s E pending rst ready => ?_, fun s =>
    ⟨exec_emit_of_outCnt 3, exec_emit_of_outCnt 2, exec_emit_of_outCnt 1, fun last =>
      ⟨exec_emit_of_outCnt 0 last, rfl, rfl⟩⟩⟩
  rw [decode_of_pending pending]
  exact decode_output_emit rst ready

/-- Settles O26: every word with `out_ready = 0` selects STALL, whose edges only move the schedule on. -/
theorem stallHoldsTheOfferedByte : Obligations.StallHoldsTheOfferedByte := by
  have selected (s : State) (E : EventWord) (pending : s.outCnt ≠ 0) (rst : EventWord.rst E = false)
      (ready : EventWord.outReady E = false) : decode (phase s) E = .stall := by
    rw [decode_of_pending pending]
    exact decode_output_stall rst ready
  refine ⟨selected, exec_stall, fun s es rest pending stim words => ?_⟩
  have stalls (E : EventWord) (mem : E ∈ es) : decode (phase s) E = .stall := by
    obtain ⟨rst, ready⟩ := words E mem
    exact selected s E pending rst ready
  exact ⟨_, runFor_of_idle_or_stall stim fun E mem => .inr (stalls E mem), (outValid_iff _).mpr pending,
    outData_schedule pending rest _, rfl⟩

/-- Settles O28: the decode of the input phase does not read `out_ready`, and no operation sends a byte there. -/
theorem readyIsIgnoredInTheInputPhase : Obligations.ReadyIsIgnoredInTheInputPhase := by
  intro s empty r e v d
  rw [atEdge_of_empty empty, atEdge_of_empty empty, decode_input_ofSignals_outReady r e v false true]
  obtain ⟨t, after, sink⟩ := exec_sink_of_empty (decode .input (EventWord.ofSignals r e v true d)) empty
  exact ⟨t, after, after, sink⟩

end Sys2Proof.Machine
end

section
/-! R114: what takes effect when several signals are set at one edge. -/

namespace Sys2Proof.Machine

/-! `rst = 1` at an edge: both channels are closed, whatever the state and the other strobes. -/

theorem inputTransfer_of_rst {E : EventWord} (rst : EventWord.rst E = true) (s : State) :
    inputTransfer s E = false := by
  rw [inputTransfer, rst, Bool.not_true, Bool.false_and, Bool.false_and]

theorem outputTransfer_of_rst {E : EventWord} (rst : EventWord.rst E = true) (s : State) :
    outputTransfer s E = false := by
  rw [outputTransfer, rst, Bool.not_true, Bool.false_and, Bool.false_and]

/-! The statement. -/

/-- Settles O31: an edge performs the one operation that decode answers, RESET whenever `rst = 1`; a transfer asks for
`rst = 0` and for the phase of its channel; FEED_EOS is the feed step and then `fill` cleared. -/
theorem simultaneousEventsAreSettled : Obligations.SimultaneousEventsAreSettled := by
  refine ⟨step_eq, fun s E rst => ⟨?_, inputTransfer_of_rst rst s, outputTransfer_of_rst rst s⟩,
    not_inputTransfer_and_outputTransfer, fun s b empty => ?_⟩
  · rw [atEdge_of_rst rst, exec_reset]
  · exact ⟨acceptByte b s, exec_feed_of_empty empty b, exec_feedEos_of_empty empty b⟩

end Sys2Proof.Machine
end

section
/-! R130, R131: RESET at both levels. -/

namespace Sys2Proof.Machine

theorem resetRegisters_resetRegisters (s : State) : resetRegisters (resetRegisters s) = resetRegisters s := rfl

@[simp] theorem TState.reset_out (t : TState) : t.reset.out = t.out := rfl

/-- Settles O19: the decode tests `rst` before the phase, and the one update of RESET, done twice, is the same update. -/
theorem resetClearsEveryRegister : Obligations.ResetClearsEveryRegister := by
  refine fun s => ⟨fun E => decode_rst (phase s), exec_reset s, ?_, ?_, ?_⟩
  · exact (exec_reset _).trans (congrArg _ (resetRegisters_resetRegisters s))
  · exact (inReady_iff (resetRegisters s)).mpr (resetRegisters_outCnt s)
  · exact outValid_of_empty (resetRegisters_outCnt s)

/-- Settles O45: `reset` writes the buffer and the counter, and the output is neither. -/
theorem transactionResetEmitsNothing : Obligations.TransactionResetEmitsNothing := by
  refine fun t => ⟨apply_reset t, ?_⟩
  rw [apply_reset, TState.reset_out]

end Sys2Proof.Machine
end

section
/-! R135: the input channel stays closed until the EMITs after a pixel completion have sent its bytes. -/

namespace Sys2Proof.Machine

theorem pending_iff (s : State) : s.outCnt ≠ 0 ↔ 0 < s.outCnt.val := Fin.pos_iff_ne_zero.symm

/-- The number of EMITs in a history. -/
def emitCount (h : List (State × Instr)) : Nat := h.countP fun e => decide (e.2 = .emit)

theorem emitCount_cons (s : State) (i : Instr) (h : List (State × Instr)) :
    emitCount ((s, i) :: h) = emitCount h + if i = .emit then 1 else 0 := by
  simp [emitCount, List.countP_cons]

theorem length_history (k : Nat) (s : State) : (history k s).length = k := by
  induction k generalizing s with
  | zero => rfl
  | succ k ih =>
    obtain ⟨u, hu, -⟩ := step_effect s
    rw [history_succ k hu, List.length_cons, ih u]

theorem emitCount_history_le (k : Nat) (s : State) : emitCount (history k s) ≤ k :=
  List.countP_le_length.trans_eq (length_history k s)

/-- One edge of the output phase that is no RESET: an EMIT takes 1 from `out_cnt`, a STALL takes nothing, and neither accepts
or stores a byte. -/
theorem step_of_pending {s t : State} (pending : s.outCnt ≠ 0) (no_reset : nextOp s ≠ .reset) (h : step s = .next t) :
    t.outCnt.val + (if nextOp s = .emit then 1 else 0) = s.outCnt.val ∧ t.buf = s.buf ∧ t.fill = s.fill ∧
      transactionOps (nextOp s) = [] := by
  cases edgeEffect_of_step h with
  | reset op _ => exact absurd op no_reset
  | feed empty _ _ _ => exact absurd empty pending
  | feedEos empty _ _ _ => exact absurd empty pending
  | eos empty _ _ => exact absurd empty pending
  | idle empty _ _ => exact absurd empty pending
  | emit _ op after =>
    rw [op, after, if_pos rfl]
    exact ⟨Nat.sub_add_cancel ((pending_iff s).mp pending), rfl, rfl, rfl⟩
  | stall _ op after => rw [op, after]; exact ⟨rfl, rfl, rfl, rfl⟩

/-- A run without RESET and with fewer EMITs than bytes to send never leaves the output phase: each EMIT takes 1 from
`out_cnt`, and no byte is accepted or stored. -/
theorem runFor_of_emitCount_lt {k : Nat} {s t : State} (run : runFor k s = .next t)
    (no_reset : ∀ e ∈ history k s, e.2 ≠ .reset) (few : emitCount (history k s) < s.outCnt.val) :
    t.outCnt.val + emitCount (history k s) = s.outCnt.val ∧ t.buf = s.buf ∧ t.fill = s.fill ∧
      acceptedOps (history k s) = [] := by
  induction k generalizing s with
  | zero => cases run; exact ⟨rfl, rfl, rfl, rfl⟩
  | succ k ih =>
    obtain ⟨u, hu, -⟩ := step_effect s
    have pending : s.outCnt ≠ 0 := (pending_iff s).mpr (Nat.zero_lt_of_lt few)
    rw [history_succ k hu] at no_reset few ⊢
    rw [runFor_succ k hu] at run
    obtain ⟨no_reset_edge, no_reset_rest⟩ := List.forall_mem_cons.mp no_reset
    obtain ⟨count, buf, fill, ops⟩ := step_of_pending pending no_reset_edge hu
    rw [emitCount_cons] at few ⊢
    obtain ⟨count_rest, buf_rest, fill_rest, ops_rest⟩ := ih run no_reset_rest (by omega)
    exact ⟨by omega, buf_rest.trans buf, fill_rest.trans fill, by rw [acceptedOps_cons, ops, ops_rest, List.append_nil]⟩

/-- Settles O42: with fewer than four EMITs `out_cnt` is still 4 less their number, and an edge performs one EMIT at most. -/
theorem inputIsClosedUntilFourEmits : Obligations.InputIsClosedUntilFourEmits := by
  intro k s t full run no_reset
  have closed (few : emitCount (history k s) < 4) :
      inReady t = false ∧ t.buf = s.buf ∧ t.fill = s.fill ∧ acceptedOps (history k s) = [] := by
    have bytes : s.outCnt.val = 4 := congrArg Fin.val full
    obtain ⟨count, frame⟩ := runFor_of_emitCount_lt run no_reset (few.trans_eq bytes.symm)
    exact ⟨inReady_of_pending ((pending_iff t).mpr (by omega)), frame⟩
  have one_each := emitCount_history_le k s
  exact ⟨closed, one_each, fun short => (closed (one_each.trans_lt short)).1⟩

end Sys2Proof.Machine
end

section
/-! Encode against decode (R43, R46): what a canonical word decodes to in each phase, and the edge that it stands for. -/

namespace Sys2Proof.Machine

/-- What a word decodes to can be selected in its phase. -/
theorem wellFormedIn_decode (p : Phase) (E : EventWord) : (decode p E).wellFormedIn p = true := by
  cases p with
  | input => obtain op | op | op | op | op := decode_input_cases E <;> rw [op] <;> rfl
  | output => obtain op | op | op := decode_output_cases E <;> rw [op] <;> rfl

/-! The canonical words that carry a byte, as their five signals. -/

theorem or_setWidth_eq_ofSignals (eos : Bool) (b : Byte) :
    (if eos then 0x600#12 else 0x200#12) ||| b.setWidth 12 = EventWord.ofSignals false eos true false b := by
  ext i hi
  rw [← BitVec.getLsbD_eq_getElem, ← BitVec.getLsbD_eq_getElem, getLsbD_ofSignals]
  cases eos <;> interval_cases i <;> simp

theorem encode_feed_eq_ofSignals (b : Byte) : encode (.feed b) = EventWord.ofSignals false false true false b :=
  or_setWidth_eq_ofSignals false b

theorem encode_feedEos_eq_ofSignals (b : Byte) : encode (.feedEos b) = EventWord.ofSignals false true true false b :=
  or_setWidth_eq_ofSignals true b

/-! The decode of a canonical word. -/

theorem decode_encode_feed (b : Byte) : decode .input (encode (.feed b)) = .feed b := by
  rw [encode_feed_eq_ofSignals, decode_input_feed (by simp) (by simp) (by simp), inData_ofSignals]

theorem decode_encode_feedEos (b : Byte) : decode .input (encode (.feedEos b)) = .feedEos b := by
  rw [encode_feedEos_eq_ofSignals, decode_input_feedEos (by simp) (by simp) (by simp), inData_ofSignals]

/-- In a phase that its row allows, the canonical word of an operation selects it. -/
theorem decode_encode {p : Phase} {i : Instr} (allowed : i.wellFormedIn p = true) : decode p (encode i) = i := by
  cases p with
  | input =>
    cases i with
    | feed b => exact decode_encode_feed b
    | feedEos b => exact decode_encode_feedEos b
    | emit | stall => exact nomatch allowed
    | reset | eos | idle => rfl
  | output =>
    cases i with
    | feed b | feedEos b | eos | idle => exact nomatch allowed
    | reset | emit | stall => rfl

/-- In the other phase it selects an operation that changes no state: no word of the input side has `out_ready` set, and the
words of EMIT and STALL have no strobe of the input side (R88, R104). -/
theorem decode_encode_of_not_allowed {p : Phase} {i : Instr} (refused : i.wellFormedIn p = false) :
    decode p (encode i) = .idle ∨ decode p (encode i) = .stall := by
  cases p with
  | input =>
    cases i with
    | emit | stall => exact .inl rfl
    | reset | feed b | feedEos b | eos | idle => exact nomatch refused
  | output =>
    cases i with
    | feed b => rw [encode_feed_eq_ofSignals, decode_output_stall (by simp) (by simp)]; exact .inr rfl
    | feedEos b => rw [encode_feedEos_eq_ofSignals, decode_output_stall (by simp) (by simp)]; exact .inr rfl
    | eos | idle => exact .inr rfl
    | reset | emit | stall => exact nomatch refused

theorem exec_idle_or_stall {i : Instr} (op : i = .idle ∨ i = .stall) (s : State) : exec i s = .next s := by
  obtain rfl | rfl := op
  · exact exec_idle s
  · exact exec_stall s

/-- Outside its phase an operation changes nothing (log entry 6). -/
theorem exec_of_not_allowed {i : Instr} {s : State} (refused : i.wellFormedIn (phase s) = false) :
    exec i s = .next s := by
  obtain empty | pending := eq_or_ne s.outCnt 0
  · rw [phase_of_empty empty] at refused
    cases i with
    | emit => rw [exec_emit, inOutputPhase_of_empty _ empty]
    | stall => exact exec_stall s
    | reset | feed b | feedEos b | eos | idle => exact nomatch refused
  · rw [phase_of_pending pending] at refused
    cases i with
    | feed b => rw [exec_feed, inInputPhase_of_pending _ pending]
    | feedEos b => rw [exec_feedEos, inInputPhase_of_pending _ pending]
    | eos => rw [exec_eos, inInputPhase_of_pending _ pending]
    | idle => exact exec_idle s
    | reset | emit | stall => exact nomatch refused

/-! The step at a listed word. -/

/-- With a word listed, the step performs what it decodes to, and the schedule moves on by it. -/
theorem step_of_cons {s : State} {E : EventWord} {rest : List EventWord} (stim : s.stim = E :: rest) :
    step s = exec (decode (phase s) E) { s with stim := rest, edge := s.edge + 1 } := by
  rw [step_eq, nextOp, nextEvent_cons stim, sampled, stim, List.tail_cons]

/-- A canonical word performs its operation in a phase that allows it. -/
theorem step_of_encode {s : State} {i : Instr} {rest : List EventWord} (allowed : i.wellFormedIn (phase s) = true)
    (stim : s.stim = encode i :: rest) : step s = exec i { s with stim := rest, edge := s.edge + 1 } := by
  rw [step_of_cons stim, decode_encode allowed]

/-! A word read as its signals. -/

theorem ofSignals_signals (E : EventWord) :
    EventWord.ofSignals (EventWord.rst E) (EventWord.inEos E) (EventWord.inValid E) (EventWord.outReady E)
      (EventWord.inData E) = E := by
  ext i hi
  rw [← BitVec.getLsbD_eq_getElem, ← BitVec.getLsbD_eq_getElem, getLsbD_ofSignals]
  interval_cases i <;>
    simp [EventWord.rst, EventWord.inEos, EventWord.inValid, EventWord.outReady, EventWord.inData]

theorem toNat_inData (E : EventWord) : (EventWord.inData E).toNat = E.toNat % 256 := by
  simp [EventWord.inData]

/-! The statements. -/

/-- Settles O10: the canonical word of an allowed operation takes that operation's path of the decode, and each path ends in an
operation of its phase. -/
theorem decodeInvertsEncode : Obligations.DecodeInvertsEncode :=
  ⟨fun _ _ => decode_encode, wellFormedIn_decode⟩

/-- Settles O29: an allowed operation is the one its canonical word selects; any other changes nothing, and its word selects IDLE
or STALL. -/
theorem execIsTheEdgeOfTheCanonicalWord : Obligations.ExecIsTheEdgeOfTheCanonicalWord := by
  refine ⟨fun i s => ?_, fun i s => exec_of_not_allowed⟩
  cases allowed : i.wellFormedIn (phase s) with
  | true => rw [atEdge, decode_encode allowed]
  | false => rw [atEdge, exec_of_not_allowed allowed, exec_idle_or_stall (decode_encode_of_not_allowed allowed)]

/-- Settles O13: an op's line is its canonical word, and a pseudo-instruction's words are those of its ops, one after another. -/
theorem assembledLinesPerformTheirOps : Obligations.AssembledLinesPerformTheirOps := by
  refine ⟨fun i s rest => step_of_encode, fun r g b => rfl, rfl, fun n i => ?_, fun bs => ?_, fun E => rfl⟩
  · induction n with
    | zero => rfl
    | succ n ih => exact congrArg (encode i :: ·) ih
  · induction bs with
    | nil => rfl
    | cons b bs ih => exact congrArg (encode (.feed b) :: ·) ih

/-- Settles O18: the sampled state is the state with its schedule moved on, which leaves an empty schedule empty. -/
theorem stepRunsTheDecodedOperation : Obligations.StepRunsTheDecodedOperation := by
  refine ⟨fun s E rest i stim op _ => ?_, fun s stim => ?_⟩
  · rw [step_of_cons stim, op]
  · rw [step_eq, nextOp, nextEvent_nil stim, sampled, stim, List.tail_nil, ← stim]

/-- Settles O8: bit by bit, each signal is read where `ofSignals` puts it; 4096 is the first number of thirteen bits. -/
theorem eventWordHoldsTheFiveSignals : Obligations.EventWordHoldsTheFiveSignals := by
  refine ⟨fun r e v o d => ?_, ofSignals_signals, fun w => eventWordOfNat_error, fun w narrow => ?_,
    fun s E rest stim => ?_⟩
  · have rst := rst_ofSignals r e v o d
    have eos := inEos_ofSignals r e v o d
    have valid := inValid_ofSignals r e v o d
    have ready := outReady_ofSignals r e v o d
    have data := inData_ofSignals r e v o d
    exact ⟨rst, eos, valid, ready, data, rst, eos, valid, ready, data, toNat_inData _⟩
  · exact ⟨_, eventWordOfNat_ok narrow, Nat.mod_eq_of_lt narrow⟩
  · exact ⟨nextEvent_cons stim, by rw [sampled_stim, stim, List.tail_cons]⟩

/-- Settles O9: each word of the spec, decoded in its phase. -/
theorem specEventWordsDecode : Obligations.SpecEventWordsDecode := by
  unfold Obligations.SpecEventWordsDecode
  decide

end Sys2Proof.Machine
end

section
/-! What the output register holds (R14, R67), and the invariants at reset. -/

namespace Sys2Proof.Machine

/-- A feed in the input phase loads CONVERT of the three bytes then in the buffer, or leaves nothing to send. -/
theorem acceptByte_holdsItsPixel {s : State} (b : Byte) (empty : s.outCnt = 0) : (acceptByte b s).HoldsItsPixel := by
  obtain ⟨full, -⟩ | ⟨-, eq⟩ := acceptByte_cases b s
  · rw [acceptByte_of_fill_two b full]
    exact fun _ => rfl
  · rw [eq]
    exact fun pending => absurd empty pending

/-- Settles O36: only a completion fills the output register, from the bytes that it leaves in the buffer, and the output phase
writes neither of the two. -/
theorem outputRegisterHoldsItsPixel : Obligations.OutputRegisterHoldsItsPixel := by
  intro s t holds h
  cases edgeEffect_of_step h with
  | reset _ after => subst after; exact fun pending => absurd rfl pending
  | feed empty b _ after => subst after; exact acceptByte_holdsItsPixel b empty
  | feedEos empty b _ after => subst after; exact acceptByte_holdsItsPixel b empty
  | eos _ _ after => subst after; exact holds
  | idle _ _ after => subst after; exact holds
  | emit pending _ after => subst after; exact fun _ => holds pending
  | stall _ _ after => subst after; exact holds

theorem acceptByte_someSlotZero {s : State} (b : Byte) (zero : s.SomeSlotZero) : (acceptByte b s).SomeSlotZero := by
  obtain ⟨-, eq⟩ | ⟨-, eq⟩ := acceptByte_cases b s <;> rw [eq]
  · obtain ⟨-, -, -, some_zero, -⟩ := oneChannelIsZero s.buf[0] s.buf[1] b
    exact some_zero
  · exact zero

/-- Settles O37: RESET writes zeros, a completion writes a result of CONVERT, and nothing else writes the output register. -/
theorem someOutputSlotStaysZero : Obligations.SomeOutputSlotStaysZero := by
  intro s t zero h
  cases edgeEffect_of_step h with
  | reset _ after => subst after; exact .inl rfl
  | feed _ b _ after => subst after; exact acceptByte_someSlotZero (s := sampled s) b zero
  | feedEos _ b _ after => subst after; exact acceptByte_someSlotZero (s := sampled s) b zero
  | eos _ _ after => subst after; exact zero
  | idle _ _ after => subst after; exact zero
  | emit _ _ after => subst after; exact zero
  | stall _ _ after => subst after; exact zero

/-- Settles O34: the fields of the reset state, with nothing stored and nothing to send. -/
theorem resetStateMeetsTheInvariants : Obligations.ResetStateMeetsTheInvariants :=
  ⟨reset_buf, reset_fill, reset_outReg, reset_outCnt, (inReady_iff _).mpr reset_outCnt, outValid_of_empty reset_outCnt,
    fun _ => reset_fill, fun pending => absurd reset_outCnt pending, .inl rfl⟩

end Sys2Proof.Machine
end

section
/-! Stale registers cannot be observed (93 entry I2): every update leads from two states that differ only in them to two such
states. -/

namespace Sys2Proof.Machine

section
variable {s t : State} (same : SameButStale s t)
include same

theorem sameButStale_phase : phase s = phase t := by
  obtain ⟨-, outCnt, -⟩ := same
  rw [phase, outCnt, phase]

theorem sameButStale_outData : outData s = outData t := by
  obtain ⟨-, outCnt, -, -, edge, -, outReg⟩ := same
  obtain empty | pending := eq_or_ne s.outCnt 0
  · rw [outData, dif_pos empty, edge, outData, dif_pos (outCnt ▸ empty)]
  · simp only [outData, outReg pending, outCnt, edge]

theorem sameButStale_nextOp : nextOp s = nextOp t := by
  have phase := sameButStale_phase same
  obtain ⟨-, -, stim, -, edge, -⟩ := same
  rw [nextOp, nextEvent, phase, stim, edge]
  rfl

theorem sameButStale_sampled : SameButStale (sampled s) (sampled t) := by
  obtain ⟨fill, outCnt, stim, sink, edge, buf, outReg⟩ := same
  exact ⟨fill, outCnt, congrArg List.tail stim, sink, congrArg (· + 1) edge, buf, outReg⟩

theorem sameButStale_resetRegisters : SameButStale (resetRegisters s) (resetRegisters t) := by
  obtain ⟨-, -, stim, sink, edge, -, -⟩ := same
  exact ⟨rfl, rfl, stim, sink, edge, fun _ _ => rfl, fun _ => rfl⟩

theorem sameButStale_endStream : SameButStale (endStream s) (endStream t) := by
  obtain ⟨-, outCnt, stim, sink, edge, -, outReg⟩ := same
  exact ⟨rfl, outCnt, stim, sink, edge, fun i below => absurd below (Fin.not_lt_zero i), outReg⟩

/-- A completion reads slots 0 and 1, which lie below `fill = 2`. -/
theorem sameButStale_complete (b : Byte) (full : s.fill = 2) : SameButStale (complete b s) (complete b t) := by
  obtain ⟨-, -, stim, sink, edge, buf, -⟩ := same
  have stored (i : Fin 3) (below : i < 2) : s.buf[i] = t.buf[i] := buf i (full ▸ below)
  refine ⟨rfl, rfl, stim, sink, edge, fun i below => absurd below (Fin.not_lt_zero i), fun _ => ?_⟩
  exact congrArg₂ (convert · · b) (stored 0 (by decide)) (stored 1 (by decide))

/-- A store writes slot `fill` of both buffers, the one slot that comes to lie below the counter. -/
theorem sameButStale_storeByte (b : Byte) : SameButStale (storeByte b s) (storeByte b t) := by
  obtain ⟨fill, outCnt, stim, sink, edge, buf, outReg⟩ := same
  refine ⟨congrArg (· + 1) fill, outCnt, stim, sink, edge, fun i below => ?_, outReg⟩
  have slot : i < s.fill ∨ s.fill = i := by
    simp only [storeByte_fill] at below
    omega
  simp only [storeByte_buf, Fin.getElem_fin, Vector.getElem_set, fill]
  split
  · rfl
  · exact buf i (by omega)

theorem sameButStale_acceptByte (b : Byte) : SameButStale (acceptByte b s) (acceptByte b t) := by
  have fill : s.fill = t.fill := same.1
  obtain ⟨full, eq⟩ | ⟨room, eq⟩ := acceptByte_cases b s <;> rw [eq]
  · rw [acceptByte_of_full b (fill ▸ full)]
    exact sameButStale_complete same b full
  · rw [acceptByte_of_partial b (fill ▸ room)]
    exact sameButStale_storeByte same b

theorem sameButStale_sendByte (pending : s.outCnt ≠ 0) : SameButStale (sendByte s) (sendByte t) := by
  have offered := sameButStale_outData same
  obtain ⟨fill, outCnt, stim, sink, edge, buf, outReg⟩ := same
  exact ⟨fill, by simp [outCnt], stim, by simp [sink, offered], edge, buf, fun _ => outReg pending⟩

/-! An update behind the guard of its phase: the guard reads `out_cnt`, so it is open in both states or in neither. -/

theorem sameButStale_inInputPhase {f : State → State} (effect : SameButStale (f s) (f t)) :
    SameButStale (inInputPhase f s) (inInputPhase f t) := by
  have outCnt : s.outCnt = t.outCnt := same.2.1
  obtain empty | pending := eq_or_ne s.outCnt 0
  · rw [inInputPhase_of_empty f empty, inInputPhase_of_empty f (outCnt ▸ empty)]
    exact effect
  · rw [inInputPhase_of_pending f pending, inInputPhase_of_pending f (outCnt ▸ pending)]
    exact same

theorem sameButStale_inOutputPhase_sendByte :
    SameButStale (inOutputPhase sendByte s) (inOutputPhase sendByte t) := by
  have outCnt : s.outCnt = t.outCnt := same.2.1
  obtain empty | pending := eq_or_ne s.outCnt 0
  · rw [inOutputPhase_of_empty _ empty, inOutputPhase_of_empty _ (outCnt ▸ empty)]
    exact same
  · rw [inOutputPhase_of_pending _ pending, inOutputPhase_of_pending _ (outCnt ▸ pending)]
    exact sameButStale_sendByte same pending

theorem sameButStale_exec (i : Instr) :
    ∃ s' t', exec i s = .next s' ∧ exec i t = .next t' ∧ SameButStale s' t' := by
  cases i with
  | reset => exact ⟨_, _, exec_reset s, exec_reset t, sameButStale_resetRegisters same⟩
  | feed b => exact ⟨_, _, exec_feed b s, exec_feed b t, sameButStale_inInputPhase same (sameButStale_acceptByte same b)⟩
  | feedEos b =>
    exact ⟨_, _, exec_feedEos b s, exec_feedEos b t,
      sameButStale_inInputPhase same (sameButStale_endStream (sameButStale_acceptByte same b))⟩
  | eos => exact ⟨_, _, exec_eos s, exec_eos t, sameButStale_inInputPhase same (sameButStale_endStream same)⟩
  | idle => exact ⟨s, t, exec_idle s, exec_idle t, same⟩
  | emit => exact ⟨_, _, exec_emit s, exec_emit t, sameButStale_inOutputPhase_sendByte same⟩
  | stall => exact ⟨s, t, exec_stall s, exec_stall t, same⟩

end

/-- Settles O39: the ports read `out_cnt`, the unsent bytes and the edge number, which the two states share; so they perform the
same operation, which keeps them alike. -/
theorem staleRegistersAreUnobservable : Obligations.StaleRegistersAreUnobservable := by
  intro s t same
  have outCnt : s.outCnt = t.outCnt := same.2.1
  refine ⟨by rw [inReady, outCnt, inReady], by rw [outValid, outCnt, outValid], sameButStale_outData same, ?_⟩
  rw [step_eq, step_eq, ← sameButStale_nextOp same]
  exact sameButStale_exec (sameButStale_sampled same) (nextOp s)

end Sys2Proof.Machine
end

section
/-! R107 item 1 and R108: a run from reset that loses no byte sends the transaction-level output. -/

namespace Sys2Proof.Machine

/-- Settles O46: some state follows the edge, and `step_refines` is the square. -/
theorem stepRefinesTheTransactionLevel : Obligations.StepRefinesTheTransactionLevel := by
  intro s t rel safe
  obtain ⟨s', h, -⟩ := step_effect s
  exact ⟨s', h, step_refines rel safe h⟩

/-- Reset registers, with nothing sent, are the start of the transaction level. -/
theorem refines_start {s : State} (reset : s.RegistersReset) (nothing_sent : s.sink = []) : Refines s .start := by
  obtain ⟨buf, fill, -, outCnt⟩ := reset
  refine ⟨buf.symm, fill.symm, ?_⟩
  rw [nothing_sent, unsent_of_empty outCnt]
  rfl

/-- A lossless run from reset: sent and unsent bytes together are the transaction-level output. -/
theorem transactionOutput_of_run {k : Nat} {s t : State} (reset : s.RegistersReset) (nothing_sent : s.sink = [])
    (run : runFor k s = .next t) (safe : lossless (history k s) = true) :
    transactionOutput (acceptedOps (history k s)) = t.sink ++ unsent t := by
  obtain ⟨-, -, out⟩ := runFor_refines (refines_start reset nothing_sent) run safe
  exact out

theorem sink_of_drained_run_from_reset {k : Nat} {s t : State} (reset : s.RegistersReset) (nothing_sent : s.sink = [])
    (run : runFor k s = .next t) (safe : lossless (history k s) = true) (drained : t.outCnt = 0) :
    t.sink = transactionOutput (acceptedOps (history k s)) := by
  rw [transactionOutput_of_run reset nothing_sent run safe, unsent_of_empty drained, List.append_nil]

/-- Settles O47: what the sink lacks of the transaction-level output is the unsent bytes, of which a drained run has none. -/
theorem sentBytesAreTheTransactionOutput : Obligations.SentBytesAreTheTransactionOutput := by
  intro k s t reset nothing_sent run safe
  refine ⟨?_, sink_of_drained_run_from_reset reset nothing_sent run safe⟩
  rw [transactionOutput_of_run reset nothing_sent run safe]
  exact ⟨unsent t, rfl⟩

/-- A run that accepts no `reset` performs no RESET, so it cannot lose a byte to one. -/
theorem lossless_of_not_mem_acceptedOps {h : List (State × Instr)} (no_reset : TOp.reset ∉ acceptedOps h) :
    lossless h = true := by
  induction h with
  | nil => rfl
  | cons e h ih =>
    obtain ⟨s, i⟩ := e
    rw [acceptedOps_cons, List.mem_append, not_or] at no_reset
    obtain ⟨no_reset_edge, no_reset_rest⟩ := no_reset
    refine (lossless_cons s i h).mpr ⟨fun reset => ?_, ih no_reset_rest⟩
    exact absurd (List.mem_singleton_self _) (reset ▸ no_reset_edge)

/-- The transaction-level output of a stream and its end. -/
theorem transactionOutput_stream (bytes : List Byte) :
    transactionOutput (bytes.map .feed ++ [.eos]) = convertStream bytes := by
  rw [transactionOutput, applyAll_append]
  exact out_applyAll_feeds (t := .start) rfl bytes

/-- Settles O50: a stream holds no `reset`, so the run sends the whole transaction-level output, which is the converted stream. -/
theorem streamIsConvertedTripleByTriple : Obligations.StreamIsConvertedTripleByTriple := by
  intro k s t bytes reset nothing_sent run drained accepted
  have safe : lossless (history k s) = true := lossless_of_not_mem_acceptedOps (by simp [accepted])
  rw [sink_of_drained_run_from_reset reset nothing_sent run safe drained, accepted, transactionOutput_stream]

end Sys2Proof.Machine
end

section
/-! R107 item 2, any run: each pixel completed in it against the part of it that was sent. -/

namespace Sys2Proof.Machine

/-! What an edge adds to the losses. -/

/-- The pixel being sent, with the number of its bytes still unsent. -/
def openPixel (s : State) : List (Vector Byte 4 × Nat) := if s.outCnt = 0 then [] else [(s.outReg, s.outCnt.val)]

theorem openPixel_of_empty {s : State} (empty : s.outCnt = 0) : openPixel s = [] := if_pos empty

theorem openPixel_of_pending {s : State} (pending : s.outCnt ≠ 0) : openPixel s = [(s.outReg, s.outCnt.val)] :=
  if_neg pending

/-- The pixel that the operation ends, with the number of its bytes that are lost: a RESET cuts the open pixel, and the EMIT of the
last byte sends it whole. -/
def closedPixel (s : State) (i : Instr) : List (Vector Byte 4 × Nat) :=
  match i with
  | .reset => openPixel s
  | .emit => if s.outCnt = 1 then [(s.outReg, 0)] else []
  | _ => []

theorem lostPerPixel_nil (final : State) : lostPerPixel [] final = (openPixel final).map Prod.snd := by
  rw [openPixel, apply_ite (List.map Prod.snd)]
  rfl

theorem lostPerPixel_cons (s : State) (i : Instr) (h : List (State × Instr)) (final : State) :
    lostPerPixel ((s, i) :: h) final = (closedPixel s i).map Prod.snd ++ lostPerPixel h final := by
  cases i with
  | reset => by_cases empty : s.outCnt = 0 <;> simp [lostPerPixel, closedPixel, openPixel, empty]
  | emit => by_cases last : s.outCnt = 1 <;> simp [lostPerPixel, closedPixel, last]
  | feed b | feedEos b | eos | idle | stall => simp [lostPerPixel, closedPixel]

/-! The two sequences of bytes that a list of pixels, each with its loss, stands for. -/

/-- All bytes of the pixels. -/
def wholeBytes (pixels : List (Vector Byte 4 × Nat)) : List Byte := pixels.flatMap fun p => p.1.toList

/-- The bytes of the pixels but for the last ones that each of them has not sent. -/
def keptBytes (pixels : List (Vector Byte 4 × Nat)) : List Byte := pixels.flatMap fun p => p.1.toList.take (4 - p.2)

@[simp] theorem wholeBytes_append (ps qs : List (Vector Byte 4 × Nat)) :
    wholeBytes (ps ++ qs) = wholeBytes ps ++ wholeBytes qs := List.flatMap_append

@[simp] theorem keptBytes_append (ps qs : List (Vector Byte 4 × Nat)) :
    keptBytes (ps ++ qs) = keptBytes ps ++ keptBytes qs := List.flatMap_append

/-- EMIT leaves the pixel with one unsent byte fewer, open or, after its last byte, closed. -/
theorem closedPixel_emit {s : State} (pending : s.outCnt ≠ 0) :
    closedPixel s .emit ++ openPixel (sendByte s) = [(s.outReg, s.outCnt.val - 1)] := by
  by_cases last : s.outCnt = 1
  · simp [closedPixel, openPixel, last]
  · have still_pending : (sendByte s).outCnt ≠ 0 := by
      rw [pending_iff, sendByte_outCnt]
      dsimp only
      omega
    simp [closedPixel, last, openPixel_of_pending still_pending]

/-- The sent part of the pixel, one byte longer by the byte on `out_data`. -/
theorem take_eq_append_outData {s : State} (pending : s.outCnt ≠ 0) :
    s.outReg.toList.take (4 - (s.outCnt.val - 1)) = s.outReg.toList.take (4 - s.outCnt.val) ++ [outData s] := by
  have count : s.outCnt.val ≠ 0 := fun zero => pending (Fin.ext zero)
  have next : 4 - (s.outCnt.val - 1) = 4 - s.outCnt.val + 1 := by omega
  rw [next, outData_of_pending count, List.take_succ_eq_append_getElem (by simp; omega), Vector.getElem_toList]

/-- The relation between the levels in any run: the transaction level has emitted all bytes of the pixels closed so far and of the open
one, and the sink has taken those of them that were kept. -/
structure CutRefines (s : State) (t : TState) (closed : List (Vector Byte 4 × Nat)) : Prop where
  buf : t.buf = s.buf
  fill : t.fill = s.fill
  out : t.out = wholeBytes (closed ++ openPixel s)
  sink : s.sink = keptBytes (closed ++ openPixel s)

section
variable {s : State} {t : TState} {closed : List (Vector Byte 4 × Nat)} (rel : CutRefines s t closed)
include rel

/-- A RESET closes the open pixel as it stands. -/
theorem cutRefines_resetRegisters : CutRefines (resetRegisters s) t.reset (closed ++ openPixel s) :=
  ⟨rfl, rfl, by rw [openPixel_of_empty (resetRegisters_outCnt s), List.append_nil]; exact rel.out,
    by rw [openPixel_of_empty (resetRegisters_outCnt s), List.append_nil]; exact rel.sink⟩

/-- A completion opens a pixel of which nothing is sent. -/
theorem cutRefines_acceptByte (b : Byte) (empty : s.outCnt = 0) : CutRefines (acceptByte b s) (t.feed b) closed := by
  rcases t with ⟨buf, fill, out⟩
  obtain ⟨rfl, rfl, rfl, sink⟩ := rel
  rw [openPixel_of_empty empty, List.append_nil] at *
  obtain ⟨full, eq⟩ | ⟨room, eq⟩ := acceptByte_cases b s <;> rw [eq]
  · have opened : openPixel (complete b s) = [(convert s.buf[0] s.buf[1] b, 4)] := rfl
    rw [feed_of_full b full]
    exact ⟨rfl, rfl, by simp [opened, wholeBytes], by simp [opened, sink, keptBytes]⟩
  · have opened : openPixel (storeByte b s) = [] := openPixel_of_empty empty
    rw [feed_of_partial b room]
    exact ⟨rfl, rfl, by rw [opened, List.append_nil], by rw [opened, List.append_nil]; exact sink⟩

theorem cutRefines_endStream : CutRefines (endStream s) t.eos closed := ⟨rel.buf, rfl, rel.out, rel.sink⟩

/-- An EMIT keeps one byte more of the open pixel, and with the last of them closes it. -/
theorem cutRefines_sendByte (pending : s.outCnt ≠ 0) :
    CutRefines (sendByte s) t (closed ++ closedPixel s .emit) := by
  obtain ⟨buf, fill, out, sink⟩ := rel
  rw [openPixel_of_pending pending] at out sink
  have pixel : closed ++ closedPixel s .emit ++ openPixel (sendByte s) = closed ++ [(s.outReg, s.outCnt.val - 1)] := by
    rw [List.append_assoc, closedPixel_emit pending]
  refine ⟨buf, fill, ?_, ?_⟩ <;> rw [pixel]
  · simp [out, wholeBytes]
  · simp [sink, keptBytes, take_eq_append_outData pending]

end

/-- An operation that ends no pixel adds none to the closed ones. -/
theorem CutRefines.of_closes_nothing {s s' : State} {t : TState} {closed : List (Vector Byte 4 × Nat)} {i : Instr}
    (rel : CutRefines s' t closed) (none_closed : closedPixel s i = []) : CutRefines s' t (closed ++ closedPixel s i) := by
  rw [none_closed, List.append_nil]
  exact rel

/-- Any edge: what it does at the transaction level, and the pixel that it closes. -/
theorem step_cutRefines {s s' : State} {t : TState} {closed : List (Vector Byte 4 × Nat)} (rel : CutRefines s t closed)
    (h : step s = .next s') :
    CutRefines s' (t.applyAll (transactionOps (nextOp s))) (closed ++ closedPixel s (nextOp s)) := by
  have rel : CutRefines (sampled s) t closed := ⟨rel.buf, rel.fill, rel.out, rel.sink⟩
  cases edgeEffect_of_step h with
  | reset op after => rw [op, after]; exact cutRefines_resetRegisters rel
  | feed empty b op after => rw [op, after]; exact (cutRefines_acceptByte rel b empty).of_closes_nothing rfl
  | feedEos empty b op after =>
    rw [op, after]
    exact (cutRefines_endStream (cutRefines_acceptByte rel b empty)).of_closes_nothing rfl
  | eos _ op after => rw [op, after]; exact (cutRefines_endStream rel).of_closes_nothing rfl
  | idle _ op after => rw [op, after]; exact rel.of_closes_nothing rfl
  | emit pending op after => rw [op, after]; exact cutRefines_sendByte rel pending
  | stall _ op after => rw [op, after]; exact rel.of_closes_nothing rfl

/-- Any run: the losses of the pixels closed in it and of the one still open are those that `lostPerPixel` reads off. -/
theorem runFor_cutRefines {k : Nat} {s s' : State} {t : TState} {closed : List (Vector Byte 4 × Nat)}
    (rel : CutRefines s t closed) (run : runFor k s = .next s') :
    ∃ closed', CutRefines s' (t.applyAll (acceptedOps (history k s))) closed' ∧
      (closed' ++ openPixel s').map Prod.snd = closed.map Prod.snd ++ lostPerPixel (history k s) s' := by
  induction k generalizing s t closed with
  | zero => cases run; exact ⟨closed, rel, by rw [history_zero, lostPerPixel_nil, List.map_append]⟩
  | succ k ih =>
    obtain ⟨u, hu, -⟩ := step_effect s
    rw [runFor_succ k hu] at run
    obtain ⟨closed', rel', losses⟩ := ih (step_cutRefines rel hu) run
    rw [history_succ k hu, acceptedOps_cons, applyAll_append, lostPerPixel_cons, ← List.append_assoc, ← List.map_append]
    exact ⟨closed', rel', losses⟩

theorem cutRefines_start {s : State} (reset : s.RegistersReset) (nothing_sent : s.sink = []) : CutRefines s .start [] := by
  obtain ⟨buf, fill, -, outCnt⟩ := reset
  refine ⟨buf.symm, fill.symm, ?_, ?_⟩ <;> rw [openPixel_of_empty outCnt]
  · rfl
  · exact nothing_sent

/-- Settles O48: the pixels of the run, each with its loss, are those closed in it and the one open at its end. -/
theorem onlyTheLastBytesOfACutPixelAreLost : Obligations.OnlyTheLastBytesOfACutPixelAreLost := by
  intro k s t reset nothing_sent run
  obtain ⟨closed, ⟨-, -, out, sink⟩, losses⟩ := runFor_cutRefines (cutRefines_start reset nothing_sent) run
  rw [List.map_nil, List.nil_append] at losses
  refine ⟨(closed ++ openPixel t).map Prod.fst, ?_, ?_, ?_⟩
  · rw [← losses, List.length_map, List.length_map]
  · rw [List.flatMap_map]
    exact out
  · have pairs := List.zip_of_prod (xs := closed ++ openPixel t) rfl rfl
    rw [← losses, ← pairs]
    exact sink

end Sys2Proof.Machine
end

section
/-! The output channel (R101 to R107): the byte it offers, when the sink takes it, and the record of a run; no run faults
(R110). -/

namespace Sys2Proof.Machine

/-! The byte offered. -/

theorem outData_of_outCnt {s : State} (n : Fin 4) (count : s.outCnt = n.succ) : outData s = s.outReg[3 - n.val] := by
  have bytes : s.outCnt.val = n.val + 1 := congrArg Fin.val count
  rw [outData_of_pending (bytes ▸ Nat.succ_ne_zero n)]
  simp [bytes]

theorem outData_of_empty {s : State} (empty : s.outCnt = 0) : outData s = Config.freeOutData s.edge := dif_pos empty

/-- Without EMIT and RESET the edge of the output phase is a STALL, which only samples the word. -/
theorem step_of_pending_without_emit {s : State} (pending : s.outCnt ≠ 0) (no_emit : nextOp s ≠ .emit)
    (no_reset : nextOp s ≠ .reset) : step s = .next (sampled s) := by
  obtain op | op | op := nextOp_cases_of_pending pending
  · exact absurd op no_reset
  · exact absurd op no_emit
  · rw [step_eq, op, exec_stall]

/-- Settles O16: `out_cnt` counts the slots from the last one, and a STALL writes neither it nor the register. -/
theorem outDataPresentsThePixelInOrder : Obligations.OutDataPresentsThePixelInOrder := fun s =>
  ⟨outData_of_outCnt 3, outData_of_outCnt 2, outData_of_outCnt 1, outData_of_outCnt 0, outData_of_empty,
    fun pending no_emit no_reset =>
      ⟨sampled s, step_of_pending_without_emit pending no_emit no_reset, pending, outData_sampled pending⟩⟩

/-! The byte taken. -/

/-- An output transfer is an EMIT (R102). -/
theorem outputTransfer_iff (s : State) : outputTransfer s (nextEvent s) = true ↔ nextOp s = .emit := by
  cases rst : EventWord.rst (nextEvent s) with
  | true => simp [outputTransfer_of_rst rst, nextOp, decode_rst _ rst]
  | false =>
    obtain empty | pending := eq_or_ne s.outCnt 0
    · rw [outputTransfer_of_empty empty]
      obtain op | op | op | op | op := nextOp_cases_of_empty empty <;> simp [op]
    · rw [nextOp, decode_of_pending pending, decode_output rst, outputTransfer, rst, (outValid_iff s).mpr pending]
      simp

/-- The sink grows by the offered byte at an EMIT, and at no other edge. -/
theorem sink_of_step {s t : State} (h : step s = .next t) :
    t.sink = s.sink ++ if nextOp s = .emit then [outData s] else [] := by
  cases edgeEffect_of_step h with
  | reset op after => simp [op, after]
  | feed _ b op after => simp [op, after]
  | feedEos _ b op after => simp [op, after]
  | eos _ op after => simp [op, after]
  | idle _ op after => simp [op, after]
  | emit pending op after => simp [op, after, outData_sampled pending]
  | stall _ op after => simp [op, after]

/-- Settles O17: an output transfer is an EMIT, the one operation that writes the sink. -/
theorem sinkTakesTheOfferedByteAtATransfer : Obligations.SinkTakesTheOfferedByteAtATransfer := by
  intro s t h
  rw [sink_of_step h]
  by_cases op : nextOp s = .emit
  · rw [if_pos op, if_pos ((outputTransfer_iff s).mpr op)]
  · rw [if_neg op, if_neg (mt (outputTransfer_iff s).mp op), List.append_nil]

theorem sentBytes_cons (s : State) (i : Instr) (h : List (State × Instr)) :
    sentBytes ((s, i) :: h) = (if i = .emit then [outData s] else []) ++ sentBytes h := by
  by_cases op : i = .emit <;> simp [sentBytes, op]

/-- Settles O44: edge by edge, the sink and the bytes sent grow alike. -/
theorem sinkRecordsTheEmits : Obligations.SinkRecordsTheEmits := by
  intro k
  induction k with
  | zero => intro s t run; cases run; exact (List.append_nil s.sink).symm
  | succ k ih =>
    intro s t run
    obtain ⟨u, hu, -⟩ := step_effect s
    rw [runFor_succ k hu] at run
    rw [ih u t run, history_succ k hu, sentBytes_cons, sink_of_step hu, List.append_assoc]

/-! Every run goes on. -/

theorem runFor_total (k : Nat) (s : State) : ∃ t, runFor k s = .next t := by
  induction k generalizing s with
  | zero => exact ⟨s, rfl⟩
  | succ k ih =>
    obtain ⟨u, hu, -⟩ := step_effect s
    rw [runFor_succ k hu]
    exact ih u

/-- Settles O30: every arm of `exec` answers a next state, so every step and every run does. -/
theorem nothingFaults : Obligations.NothingFaults := by
  refine ⟨exec_total, fun s => exec_total (nextOp s) (sampled s), fun k s => ?_⟩
  obtain ⟨t, run⟩ := runFor_total k s
  exact ⟨t, run, length_history k s⟩

end Sys2Proof.Machine
end

section
/-! The whole-machine frame: which operation writes which register, and the edges that write none. -/

namespace Sys2Proof.Machine

/-- Everything that an operation can do to a state `s`, whatever its phase. -/
inductive ExecEffect (i : Instr) (s t : State) : Prop where
  | nothing (after : t = s)
  | reset (op : i = .reset) (after : t = resetRegisters s)
  | feed (empty : s.outCnt = 0) (b : Byte) (op : i = .feed b ∨ i = .feedEos b) (fill : Fin 3)
      (after : t = { acceptByte b s with fill := fill })
  | eos (op : i = .eos) (after : t = endStream s)
  | emit (pending : s.outCnt ≠ 0) (op : i = .emit) (after : t = sendByte s)

/-- The inversion of an operation: the state that it answers is one of its effects. -/
theorem execEffect_of_exec {i : Instr} {s t : State} (h : exec i s = .next t) : ExecEffect i s t := by
  cases allowed : i.wellFormedIn (phase s) with
  | false =>
    rw [exec_of_not_allowed allowed] at h
    cases h
    exact .nothing rfl
  | true =>
    obtain empty | pending := eq_or_ne s.outCnt 0
    · rw [phase_of_empty empty] at allowed
      cases i with
      | reset => cases h; exact .reset rfl rfl
      | feed b => rw [exec_feed_of_empty empty] at h; cases h; exact .feed empty b (.inl rfl) _ rfl
      | feedEos b => rw [exec_feedEos_of_empty empty] at h; cases h; exact .feed empty b (.inr rfl) _ rfl
      | eos => rw [exec_eos_of_empty empty] at h; cases h; exact .eos rfl rfl
      | idle => cases h; exact .nothing rfl
      | emit | stall => exact nomatch allowed
    · rw [phase_of_pending pending] at allowed
      cases i with
      | reset => cases h; exact .reset rfl rfl
      | emit => rw [exec_emit, inOutputPhase_of_pending _ pending] at h; cases h; exact .emit pending rfl rfl
      | stall => cases h; exact .nothing rfl
      | feed b | feedEos b | eos | idle => exact nomatch allowed

/-! The feed step, register by register. -/

section
variable (b : Byte) (s : State)

/-- Both branches of the feed step write the byte in slot `fill`. -/
theorem acceptByte_buf : (acceptByte b s).buf = s.buf.set s.fill.val b s.fill.isLt := by
  obtain ⟨full, eq⟩ | ⟨-, eq⟩ := acceptByte_cases b s <;> rw [eq]
  · simp [full]
  · rfl

@[simp] theorem acceptByte_stim : (acceptByte b s).stim = s.stim := by
  obtain ⟨-, eq⟩ | ⟨-, eq⟩ := acceptByte_cases b s <;> rw [eq] <;> rfl

@[simp] theorem acceptByte_edge : (acceptByte b s).edge = s.edge := by
  obtain ⟨-, eq⟩ | ⟨-, eq⟩ := acceptByte_cases b s <;> rw [eq] <;> rfl

end

/-- Settles O32: the registers that each effect of an operation writes. -/
theorem onlyTheNamedOperationsWriteEachRegister : Obligations.OnlyTheNamedOperationsWriteEachRegister := by
  intro i s t h
  cases execEffect_of_exec h with
  | nothing after =>
    subst after
    exact ⟨absurd rfl, fun _ _ _ => rfl, absurd rfl, absurd rfl, absurd rfl, absurd rfl, rfl, rfl⟩
  | reset op after =>
    subst op after
    exact ⟨fun _ => .inl rfl, absurd rfl, fun _ => .inl rfl, fun _ => .inl rfl, fun _ => .inl ⟨rfl, rfl⟩, absurd rfl,
      rfl, rfl⟩
  | eos op after =>
    subst op after
    exact ⟨absurd rfl, fun _ _ _ => rfl, fun _ => .inr (.inl rfl), absurd rfl, absurd rfl, absurd rfl, rfl, rfl⟩
  | emit pending op after =>
    subst op after
    have one_fewer : s.outCnt.val - 1 + 1 = s.outCnt.val := Nat.sub_add_cancel ((pending_iff s).mp pending)
    exact ⟨absurd rfl, fun _ _ _ => rfl, absurd rfl, absurd rfl, fun _ => .inr (.inl ⟨rfl, one_fewer⟩),
      fun _ => ⟨rfl, pending⟩, rfl, rfl⟩
  | feed empty b op fill after =>
    subst after
    have slot : (acceptByte b s).buf[s.fill] = b := by simp [acceptByte_buf]
    have others (j : Fin 3) (ne : j ≠ s.fill) : (acceptByte b s).buf[j] = s.buf[j] := by
      simp only [acceptByte_buf, Fin.getElem_fin]
      exact Vector.getElem_set_ne _ _ fun eq => ne (Fin.ext eq.symm)
    refine ⟨fun _ => .inr ⟨b, op, empty, slot⟩, fun _ => others, fun _ => .inr (.inr ⟨b, op⟩), fun changed => ?_,
      fun changed => ?_, absurd (acceptByte_sink b s), acceptByte_stim b s, acceptByte_edge b s⟩
    all_goals
      dsimp only at changed ⊢
      obtain ⟨full, eq⟩ | ⟨-, eq⟩ := acceptByte_cases b s <;> rw [eq] at changed ⊢
    · exact .inr ⟨b, op, full, empty, rfl⟩
    · exact absurd rfl changed
    · exact .inr (.inr ⟨b, op, full, empty, rfl⟩)
    · exact absurd rfl changed

/-- Settles O33: each of the words selects IDLE or STALL in the phase of the state. -/
theorem stateHoldsWhileNothingTransfers : Obligations.StateHoldsWhileNothingTransfers := by
  rintro s es rest stim (⟨empty, words⟩ | ⟨pending, words⟩) <;>
    refine runFor_of_idle_or_stall stim fun E mem => ?_
  · obtain ⟨rst, eos, valid⟩ := words E mem
    rw [decode_of_empty empty]
    exact .inl (decode_input_idle rst eos valid)
  · obtain ⟨rst, ready⟩ := words E mem
    rw [decode_of_pending pending]
    exact .inr (decode_output_stall rst ready)

end Sys2Proof.Machine
end

section
/-! Runs along a listed schedule: the feeds of a pixel, EMITs until it is sent, and what a ready sink has taken after any words of
the output phase (R106, R140). -/

namespace Sys2Proof.Machine

theorem runFor_add {j : Nat} {s t : State} (k : Nat) (run : runFor j s = .next t) : runFor (j + k) s = runFor k t := by
  induction j generalizing s with
  | zero => cases run; rw [Nat.zero_add]
  | succ j ih =>
    obtain ⟨u, hu, -⟩ := step_effect s
    rw [runFor_succ j hu] at run
    rw [Nat.add_right_comm, runFor_succ _ hu, ih run]

/-! One pixel in. -/

/-- A listed FEED in the input phase is the feed step. -/
theorem step_of_encode_feed {s : State} {b : Byte} {rest : List EventWord} (empty : s.outCnt = 0)
    (stim : s.stim = encode (.feed b) :: rest) : step s = .next (acceptByte b (sampled s)) := by
  rw [step_eq, nextOp, nextEvent_cons stim, decode_of_empty empty, decode_encode_feed]
  exact exec_feed_of_empty (s := sampled s) empty b

/-- The three feeds of a pixel, from `fill = 0`, complete it. -/
theorem runFor_pixel {s : State} {r g b : Byte} {rest : List EventWord} (empty : s.outCnt = 0) (fill : s.fill = 0)
    (stim : s.stim = assemble (.pixel r g b) ++ rest) :
    runFor 3 s = .next { s with
      buf := #v[r, g, b], fill := 0, outReg := convert r g b, outCnt := 4, stim := rest, edge := s.edge + 3 } := by
  have stim_second : s.stim.tail = encode (.feed g) :: encode (.feed b) :: rest := congrArg List.tail stim
  have stim_third : s.stim.tail.tail = encode (.feed b) :: rest := congrArg List.tail stim_second
  -- `out_cnt` and the schedule of the states between are read off `s` by unfolding, once the state is known
  rw [runFor_succ 2 (step_of_encode_feed empty stim), acceptByte_of_fill_zero (s := sampled s) r fill]
  refine Eq.trans (runFor_succ 1 (step_of_encode_feed (by exact empty) (by exact stim_second))) ?_
  rw [acceptByte_of_fill_one g rfl]
  refine Eq.trans (runFor_succ 0 (step_of_encode_feed (by exact empty) (by exact stim_third))) ?_
  rw [acceptByte_of_fill_two b rfl]
  simp [stim_third]

/-! One pixel out. -/

/-- A sampled word with `out_ready` and without `rst` sends the byte offered. -/
theorem step_of_ready {s : State} (pending : s.outCnt ≠ 0) (rst : EventWord.rst (nextEvent s) = false)
    (ready : EventWord.outReady (nextEvent s) = true) : step s = .next (sendByte (sampled s)) := by
  rw [step_eq, nextOp, decode_of_pending pending, decode_output_emit rst ready, exec_emit]
  exact congrArg _ (inOutputPhase_of_pending (s := sampled s) sendByte pending)

/-- As many EMITs as bytes are unsent send them all. -/
theorem runFor_emits {s : State} {n : Nat} {rest : List EventWord} (count : s.outCnt.val = n)
    (stim : s.stim = List.replicate n (encode .emit) ++ rest) :
    runFor n s = .next { s with sink := s.sink ++ unsent s, outCnt := 0, stim := rest, edge := s.edge + n } := by
  induction n generalizing s with
  | zero =>
    have empty : s.outCnt = 0 := Fin.ext count
    rw [unsent_of_empty empty, List.append_nil, ← empty, ← stim.trans (List.nil_append rest)]
    rfl
  | succ n ih =>
    have pending : s.outCnt ≠ 0 := (pending_iff s).mpr (by omega)
    have next : nextEvent s = encode .emit := nextEvent_cons stim
    have sends : step s = .next (sendByte (sampled s)) := step_of_ready pending (next ▸ rfl) (next ▸ rfl)
    have one_fewer : (sendByte (sampled s)).outCnt.val = n := Nat.sub_eq_of_eq_add count
    have later : (sendByte (sampled s)).stim = List.replicate n (encode .emit) ++ rest := congrArg List.tail stim
    rw [runFor_succ n sends, ih one_fewer later, unsent_eq_cons pending]
    simp [unsent, outData_sampled pending, Nat.add_assoc, Nat.add_comm 1]

/-- Settles O43: from `fill = 0` three feeds complete the pixel, and four EMITs send what is then unsent, all of it. -/
theorem onePixelPerSevenEdges : Obligations.OnePixelPerSevenEdges := by
  intro s r g b rest empty fill stim
  have loaded := runFor_pixel (rest := assemble .drain ++ rest) empty fill stim
  refine ⟨⟨_, loaded, rfl, rfl, rfl⟩, ((runFor_add 4 loaded).trans (runFor_emits rfl rfl)).trans ?_⟩
  rw [fill, empty]
  rfl

/-! The start of a stream. -/

/-- After RESET, after an accepted EOS and after a FEED_EOS that completes nothing, the registers of the input side are at the start
of a pixel. -/
theorem step_of_stream_end {s : State} {E : EventWord} {rest : List EventWord} (stim : s.stim = E :: rest)
    (ends : EventWord.rst E = true ∨
      (s.outCnt = 0 ∧ EventWord.inEos E = true ∧ (EventWord.inValid E = true → s.fill ≠ 2))) :
    ∃ t, step s = .next t ∧ t.outCnt = 0 ∧ t.fill = 0 ∧ t.sink = s.sink ∧ t.stim = rest := by
  have stim_after : (sampled s).stim = rest := congrArg List.tail stim
  rw [step_eq, nextOp, nextEvent_cons stim]
  cases rst : EventWord.rst E with
  | true => rw [decode_rst _ rst]; exact ⟨_, exec_reset _, rfl, rfl, rfl, stim_after⟩
  | false =>
    obtain ⟨empty, eos, room⟩ := ends.resolve_left (by simp [rst])
    rw [decode_of_empty empty]
    cases valid : EventWord.inValid E with
    | false =>
      rw [decode_input_eos rst eos valid]
      exact ⟨_, exec_eos_of_empty (s := sampled s) empty, empty, rfl, rfl, stim_after⟩
    | true =>
      rw [decode_input_feedEos rst eos valid, exec_feedEos_of_empty (s := sampled s) empty,
        acceptByte_of_partial (s := sampled s) _ (room valid)]
      exact ⟨_, rfl, empty, rfl, rfl, stim_after⟩

/-- Settles O40: the edge that starts the stream clears `fill`, and the three feeds after it complete a pixel of their own. -/
theorem streamStartFramesTheNextPixel : Obligations.StreamStartFramesTheNextPixel := by
  intro s E r g b rest stim starts
  obtain ⟨u, hu, empty, fill, sink, stim⟩ := step_of_stream_end stim starts
  rw [runFor_succ 3 hu]
  exact ⟨_, runFor_pixel empty fill stim, rfl, rfl, rfl, sink, rfl⟩

/-! A sink that is ready at some of the edges. -/

/-- `t` is `s` with the next `m` of its unsent bytes taken by the sink. -/
structure Drains (m : Nat) (s t : State) : Prop where
  bytes : t.sink ++ unsent t = s.sink ++ unsent s
  count : t.outCnt.val + m = s.outCnt.val
  buf : t.buf = s.buf
  fill : t.fill = s.fill
  outReg : t.outReg = s.outReg

theorem Drains.trans {m n : Nat} {s t u : State} (first : Drains m s t) (later : Drains n t u) :
    Drains (m + n) s u where
  bytes := later.bytes.trans first.bytes
  count := by have := first.count; have := later.count; omega
  buf := later.buf.trans first.buf
  fill := later.fill.trans first.fill
  outReg := later.outReg.trans first.outReg

/-- What is left unsent is the rest of the register, so what the sink has taken is the bytes before it. -/
theorem Drains.sink {m : Nat} {s t : State} (drains : Drains m s t) : t.sink = s.sink ++ (unsent s).take m := by
  have left : unsent t = (unsent s).drop m := by
    have count := drains.count
    have slots : 4 - t.outCnt.val = 4 - s.outCnt.val + m := by omega
    rw [unsent, drains.outReg, slots, unsent, List.drop_drop]
  refine List.append_cancel_right (bs := (unsent s).drop m) ?_
  rw [← left, drains.bytes, List.append_assoc, left, List.take_append_drop]

/-- An edge of the output phase without `rst` sends a byte exactly when `out_ready` is set. -/
theorem step_drains {s : State} (pending : s.outCnt ≠ 0) (rst : EventWord.rst (nextEvent s) = false) :
    ∃ t, step s = .next t ∧ t.stim = s.stim.tail ∧
      Drains (if EventWord.outReady (nextEvent s) then 1 else 0) s t := by
  cases ready : EventWord.outReady (nextEvent s) with
  | true =>
    refine ⟨_, step_of_ready pending rst ready, rfl, ?_, Nat.sub_add_cancel ((pending_iff s).mp pending), rfl, rfl, rfl⟩
    rw [unsent_eq_cons pending, sendByte_sink, List.append_assoc, outData_sampled pending]
    rfl
  | false =>
    have holds : step s = .next (sampled s) := by
      rw [step_eq, nextOp, decode_of_pending pending, decode_output_stall rst ready, exec_stall]
    exact ⟨_, holds, rfl, rfl, rfl, rfl, rfl, rfl⟩

/-- Any words of the output phase without `rst`, up to a ready one: each ready edge takes one byte, and there are bytes for all of
them. -/
theorem runFor_drains {es : List EventWord} {F : EventWord} {rest : List EventWord} {s : State}
    (stim : s.stim = es ++ F :: rest) (no_reset : ∀ E ∈ es, EventWord.rst E = false) (rst : EventWord.rst F = false)
    (ready : EventWord.outReady F = true) (enough : es.countP EventWord.outReady + 1 ≤ s.outCnt.val) :
    ∃ t, runFor (es.length + 1) s = .next t ∧ t.stim = rest ∧ Drains (es.countP EventWord.outReady + 1) s t := by
  have pending : s.outCnt ≠ 0 := (pending_iff s).mpr (by omega)
  induction es generalizing s with
  | nil =>
    have next : nextEvent s = F := nextEvent_cons stim
    obtain ⟨t, h, stim_after, drains⟩ := step_drains pending (next ▸ rst)
    rw [next, ready] at drains
    exact ⟨t, runFor_succ 0 h, stim_after.trans (congrArg List.tail stim), drains⟩
  | cons E es ih =>
    have next : nextEvent s = E := nextEvent_cons stim
    obtain ⟨rst_first, no_reset⟩ := List.forall_mem_cons.mp no_reset
    obtain ⟨u, h, stim_after, first⟩ := step_drains pending (next ▸ rst_first)
    rw [next] at first
    rw [List.countP_cons] at enough ⊢
    have count := first.count
    obtain ⟨t, run, stim_end, later⟩ := ih (stim_after.trans (congrArg List.tail stim)) no_reset (by omega)
      ((pending_iff u).mpr (by omega))
    refine ⟨t, (runFor_succ _ h).trans run, stim_end, ?_⟩
    rw [Nat.add_right_comm, Nat.add_comm]
    exact first.trans later

/-- Settles O41: the sink has taken as many of the unsent bytes as there were ready edges, and the counter says what is left. -/
theorem readySinkDrainsThePixelInOrder : Obligations.ReadySinkDrainsThePixelInOrder := by
  intro s es F rest stim no_reset rst ready m enough
  obtain ⟨t, run, stim_after, drains⟩ := runFor_drains stim no_reset rst ready enough
  have left : t.outCnt.val = s.outCnt.val - m := Nat.eq_sub_of_add_eq drains.count
  refine ⟨t, run, drains.sink, left, fun all => ?_, drains.buf, drains.fill, drains.outReg, stim_after⟩
  exact (inReady_iff t).mpr (Fin.ext (left.trans (by rw [all, Nat.sub_self]; rfl)))

/-! Which pairs of counters are reached. -/

/-- The state after `lines`, run from reset, has the counters `f` and `c`. -/
abbrev Reaches (lines : List Stimulus) (f : Fin 3) (c : Fin 5) : Prop :=
  ∃ t, runFor (assembleAll lines).length { State.reset with stim := assembleAll lines } = .next t ∧
    t.fill = f ∧ t.outCnt = c

/-- Bytes of the first pixel fill the buffer. -/
theorem reaches_fill (f : Fin 3) : Reaches [.rep f.val (.feed 0)] f 0 :=
  match f with
  | 0 | 1 | 2 => ⟨_, rfl, rfl, rfl⟩

/-- A whole pixel, of which `4 - c` bytes are then sent. -/
theorem reaches_outCnt (c : Fin 5) : Reaches [.pixel 0 0 0, .rep (4 - c.val) .emit] 0 c :=
  match c with
  | 0 | 1 | 2 | 3 | 4 => ⟨_, rfl, rfl, rfl⟩

/-- Settles O38: feeds reach each `fill`, and EMITs after a whole pixel reach each `out_cnt`. -/
theorem everyAllowedCounterPairIsReached : Obligations.EveryAllowedCounterPairIsReached := by
  intro f c allowed
  obtain rfl | pending := eq_or_ne c 0
  · exact ⟨_, reaches_fill f⟩
  · obtain rfl := allowed pending
    exact ⟨_, reaches_outCnt c⟩

end Sys2Proof.Machine
end
